-- ==== Sys2Proof/Word.lean ====
section
/-! DEFINITION. The value types of the unit (00_scope.md rules R4 and R5): every operand, result, accumulator and
data-space address is a 32-bit vector, every location of the data space a byte, every register number 3 bits wide. -/

namespace Sys2Proof

/-- A 32-bit value (parameter XLEN of rule R4). Bit 0 is the least significant bit (rule R5). -/
abbrev Word := BitVec 32

/-- A byte address of the data space (parameter ADDR_WIDTH of rule R4). -/
abbrev Addr := BitVec 32

/-- One location of the data space (10_state.md rule R22). -/
abbrev Byte := BitVec 8

/-- A register number: 3 bits, so there is no number above 7 (10_state.md rule R18). -/
abbrev RegNum := BitVec 3

end Sys2Proof
end

