-- ==== Sys2Proof/Config.lean ====
section
/-! DEFINITION. The parameters of 00_scope.md rule R4 at the values this hardware takes, the platform's description of
the data space (the open parameters MemValid and REG_BASE), and the free values: constants without a body, about which
nothing can be proved, so that a claim holds whatever they are. -/

namespace Sys2Proof

/-- The two byte orders the parameter NATIVE_ORDER can name (rule R4). -/
inductive ByteOrder where
  | little
  | big
  deriving DecidableEq, Repr

/-- What stands at a range of data-space addresses where plain memory does not. -/
inductive RegionKind where
  /-- The platform refuses the unit's reads here: MemValid is false (rules R4, R35, R79). -/
  | refused
  /-- A device: a read is answered with a byte the spec does not give, and counts as one read (rule R32). -/
  | device
  /-- The unit's own register block, placed by REG_BASE inside the data space (rules R22, R106). -/
  | registers
  deriving DecidableEq, Repr

/-- A range of size bytes starting at base, wrapping modulo 2^32. -/
structure Region where
  base : Addr
  size : Nat
  kind : RegionKind
  deriving DecidableEq, Repr

namespace Config

/-- CRC_POLY: the generator polynomial, most significant bit first, its x^32 term left out (rule R4). -/
def crcPoly : Word := 0x04C11DB7#32

/-- CRC_POLY_REFLECTED: the 32 bits of CRC_POLY in reverse order (rules R4, R75). -/
def crcPolyReflected : Word := 0xEDB88320#32

/-- CRC_XOR: what CRC32 exclusive-ors into the accumulator on entry and on exit. DESIGN CHOICE of the spec (its
decision D10, 90_conflicts.md C4): the raw form. See entry 12. -/
def crcXor : Word := 0x00000000#32

/-- NATIVE_ORDER: fixed, not switchable at run time (rules R4, R28, R66). -/
def nativeOrder : ByteOrder := .little

/-- NREG: the number of register numbers, 6 and 7 reserved (rule R4). -/
def nreg : Nat := 8

/-- FREE VALUE (entry 2). The n-th UNSPECIFIED_32 the machine has drawn: any of the 2^32 values, not a function of the
command's inputs (rule R7). -/
opaque freeWord : Nat → Word

/-- FREE VALUE (entry 9). The byte the platform's bus returns to the n-th read of the port where the address belongs to a
device or to the unit's own register block (rules R32, R106). -/
opaque freeByte : Nat → Byte

/-- FREE VALUE (entry 8). Whether the n-th read of the port sees the j-th write in flight to the same address: the read
returns the old or the new byte, the spec does not say which (rule R33). -/
opaque seesPosted : Nat → Nat → Bool

end Config

end Sys2Proof
end

