-- ==== Sys2Proof/Syntax.lean ====
section
/-! DEFINITION. The command set LFSCORE-C: the fourteen commands of 30_encoding.md rule R42, one constructor per row of
spec/opcode_table.json. A command carries no operand: no register number, no immediate and no mode bit (rules R40, R43). -/

namespace Sys2Proof

/-- The fourteen commands, in the order of rule R42. -/
inductive Instr where
  | max
  | min
  | scmp
  | alignd
  | alignu
  | npw2
  | clz
  | ctz
  | popc
  | fromle32
  | tole32
  | frombe32
  | tobe32
  | crc32
  deriving DecidableEq, Repr

end Sys2Proof
end

