-- ==== Sys2Proof/WellFormed.lean ====
section
/-! DEFINITION. Which terms are well formed: commands, command words (30_encoding.md rules R41 and R42) and the regions of
the platform's map (10_state.md rule R22). -/

namespace Sys2Proof

/-- A command has no operand that could be out of range (rules R40, R43): all fourteen are well formed. -/
def Instr.wellFormed : Instr → Bool
  | .max | .min | .scmp | .alignd | .alignu | .npw2 | .clz | .ctz | .popc
  | .fromle32 | .tole32 | .frombe32 | .tobe32 | .crc32 => true

/-- The `match` column of rule R42, in its order. -/
def matchWords : List Word :=
  [0x00000010#32, 0x00000011#32, 0x00000012#32, 0x00000020#32, 0x00000021#32, 0x00000022#32, 0x00000030#32,
   0x00000031#32, 0x00000032#32, 0x00000040#32, 0x00000041#32, 0x00000042#32, 0x00000043#32, 0x00000050#32]

/-- A command word is legal exactly when it is one of the fourteen `match` values, all 32 bits compared (rule R41). -/
def legalWord (w : Word) : Bool := matchWords.contains w

/-- A region lies within one turn of the address space; the register block is NREG aligned 32-bit words (rule R22). -/
def Region.wellFormed (g : Region) : Bool :=
  g.size ≤ 2 ^ 32 &&
    match g.kind with
    | .refused | .device => true
    | .registers => g.size == 4 * Config.nreg && g.base.toNat % 4 == 0

end Sys2Proof
end

