-- ==== Sys2Proof/Decode.lean ====
section
/-! DEFINITION. The command decoder and encoder (30_encoding.md rules R40 to R44). A command is one 32-bit word that
arrives whole, as the data of a register write, so there is no fetch, no byte order and no length to find (R28, R45). -/

namespace Sys2Proof

/-- Why a word is no command (rule R44). -/
inductive DecodeError where
  /-- Field ZERO, bits 31:8, is not zero. -/
  | upperNotZero
  /-- The pair FAM, FN is none of the fourteen. -/
  | unassigned
  deriving DecidableEq, Repr

/-- Field ZERO of format C: bits 31:8 (rule R40). -/
def fieldZero (w : Word) : BitVec 24 := w.extractLsb' 8 24

/-- Field FAM of format C: bits 7:4 (rule R40). -/
def fieldFam (w : Word) : BitVec 4 := w.extractLsb' 4 4

/-- Field FN of format C: bits 3:0 (rule R40). -/
def fieldFn (w : Word) : BitVec 4 := w.extractLsb' 0 4

/-- The opcode map by family and function (rules R40, R42). -/
def lookup (fam fn : Nat) : Except DecodeError Instr :=
  match fam, fn with
  | 1, 0 => .ok .max
  | 1, 1 => .ok .min
  | 1, 2 => .ok .scmp
  | 2, 0 => .ok .alignd
  | 2, 1 => .ok .alignu
  | 2, 2 => .ok .npw2
  | 3, 0 => .ok .clz
  | 3, 1 => .ok .ctz
  | 3, 2 => .ok .popc
  | 4, 0 => .ok .fromle32
  | 4, 1 => .ok .tole32
  | 4, 2 => .ok .frombe32
  | 4, 3 => .ok .tobe32
  | 5, 0 => .ok .crc32
  | _, _ => .error .unassigned

/-- The decoder, total on the 2^32 words and reading no state (rule R41). -/
def decode (w : Word) : Except DecodeError Instr :=
  if fieldZero w = 0#24 then lookup (fieldFam w).toNat (fieldFn w).toNat else .error .upperNotZero

/-- The family number of a command: field FAM (rules R40, R42). -/
def Instr.fam : Instr → BitVec 4
  | .max => 1#4
  | .min => 1#4
  | .scmp => 1#4
  | .alignd => 2#4
  | .alignu => 2#4
  | .npw2 => 2#4
  | .clz => 3#4
  | .ctz => 3#4
  | .popc => 3#4
  | .fromle32 => 4#4
  | .tole32 => 4#4
  | .frombe32 => 4#4
  | .tobe32 => 4#4
  | .crc32 => 5#4

/-- The function number of a command within its family: field FN (rules R40, R42). -/
def Instr.fn : Instr → BitVec 4
  | .max => 0#4
  | .min => 1#4
  | .scmp => 2#4
  | .alignd => 0#4
  | .alignu => 1#4
  | .npw2 => 2#4
  | .clz => 0#4
  | .ctz => 1#4
  | .popc => 2#4
  | .fromle32 => 0#4
  | .tole32 => 1#4
  | .frombe32 => 2#4
  | .tobe32 => 3#4
  | .crc32 => 0#4

/-- The command word: ZERO, FAM and FN side by side (rule R40). -/
def encode (i : Instr) : Word := (0#24 ++ i.fam) ++ i.fn

/-- The instruction the decoder reads from an instruction of nbits bits whose value is w, numbered as the opcode table
numbers them: bit 0 least significant, the bits above nbits zero. A command is one 32-bit word, so a value that does not
fit in 32 bits is no command (entry 13). -/
def decodeTableWord (nbits w : Nat) : Option Instr :=
  if w % 2 ^ nbits < 2 ^ 32 then (decode (BitVec.ofNat 32 (w % 2 ^ nbits))).toOption else none

end Sys2Proof
end

