-- ==== Sys2Proof/Machine/Event.lean ====
section
/-! DEFINITION. What reaches the unit from outside: register numbers and their names (10_state.md rule R10), the host's
and the platform's events (00_scope.md rule R8), and the assembler lines that spell register accesses (30_encoding.md
rule R46). -/

namespace Sys2Proof.Machine

/-- The eight register numbers by name; 6 and 7 are reserved (rules R10, R18). -/
inductive Reg where
  | a
  | b
  | r
  | acc
  | cmd
  | status
  | reserved6
  | reserved7
  deriving DecidableEq, Repr

/-- The register a number names (rule R10). -/
def decodeReg (n : RegNum) : Reg :=
  match n.toNat with
  | 0 => .a
  | 1 => .b
  | 2 => .r
  | 3 => .acc
  | 4 => .cmd
  | 5 => .status
  | 6 => .reserved6
  | _ => .reserved7

/-- The number of a register (rule R10). -/
def encodeReg : Reg → RegNum
  | .a => 0#3
  | .b => 1#3
  | .r => 2#3
  | .acc => 3#3
  | .cmd => 4#3
  | .status => 5#3
  | .reserved6 => 6#3
  | .reserved7 => 7#3

/-- One event from outside; each is served whole before the next (rule R8). -/
inductive Event where
  /-- RegWrite(n, v) by the host (rule R8); a write to CMD executes a command (rule R15). -/
  | regWrite (n : RegNum) (v : Word)
  /-- RegRead(n) by the host (rule R8). -/
  | regRead (n : RegNum)
  /-- A 32-bit write on the bus, which is a RegWrite where the map places the register block (rule R22). -/
  | busWrite (addr : Addr) (v : Word)
  /-- A 32-bit read on the bus, which is a RegRead where the map places the register block (rule R22). -/
  | busRead (addr : Addr)
  /-- The host, or another agent, writes a byte and makes it visible to the port (rule R37). -/
  | memWrite (addr : Addr) (byte : Byte)
  /-- A byte write that is not ordered against the port's reads: by another agent during a command, or one that still
  stands in a cache or a store buffer (rules R33, R105, R106). -/
  | memPost (addr : Addr) (byte : Byte)
  /-- Every write in flight becomes visible, oldest first (rules R37, R105). -/
  | memPublish
  /-- The platform applies reset between two accesses (rule R100). -/
  | reset
  /-- The host writes word to CMD and the platform applies reset once at most afterReads bytes have been read (rule
  R101). -/
  | resetDuring (word : Word) (afterReads : Nat)
  deriving DecidableEq, Repr

/-- A line of the assembler (rule R46). -/
inductive Line where
  /-- wr reg, value -/
  | wr (reg : Reg) (value : Word)
  /-- rd reg -/
  | rd (reg : Reg)
  /-- a mnemonic alone on its line -/
  | command (i : Instr)
  deriving DecidableEq, Repr

/-- The one register access a line stands for: its binary triple (rule R46). -/
def Line.event : Line → Event
  | .wr q v => .regWrite (encodeReg q) v
  | .rd q => .regRead (encodeReg q)
  | .command i => .regWrite (encodeReg .cmd) (encode i)

end Sys2Proof.Machine
end

