-- ==== Sys2Proof/Machine/State.lean ====
section
/-! DEFINITION. The state of the machine: the unit's registers (10_state.md), the data space and the platform's map of it
(20_memory.md), and the model's own fields for what enters and leaves the unit. -/

namespace Sys2Proof.Machine

/-- The cause of a fault as STATUS.CAUSE names it (60_exceptions.md rule R86). The reserved codes 7 to 15 have no name:
they never appear. -/
inductive Cause where
  | none
  | illegalCmd
  | alignZero
  | alignOvf
  | npw2Range
  | ctzZero
  | busError
  deriving DecidableEq, Repr

/-- The data space's contents: address and byte, addresses strictly rising, no byte equal to what an unlisted address
reads as. -/
abbrev Memory := List Host.Cell

/-- DESIGN CHOICE, unsafe (entry 3): the spec gives the data space no contents; an address nothing has written reads 0. -/
def Memory.unlisted : Byte := 0#8

/-- The canonical form: equal memories are equal lists. -/
abbrev Memory.wf (m : Memory) : Prop :=
  m.Pairwise (fun c d => c.1 < d.1) ∧ ∀ c ∈ m, c.1 < 2 ^ 32 ∧ c.2 ≠ Memory.unlisted

structure State where
  /-- Register A, number 0: first operand, buffer address (rule R11). -/
  a : Word
  /-- Register B, number 1: second operand, alignment, byte count (rule R12). -/
  b : Word
  /-- Register R, number 2: result, read only to the host (rule R13). -/
  r : Word
  /-- Register ACC, number 3: the CRC accumulator (rule R14). -/
  acc : Word
  /-- STATUS.ERR, bit 0 (rule R16). -/
  err : Bool
  /-- STATUS.CAUSE, bits 7:4 (rules R16, R86). -/
  cause : Cause
  /-- The data space (rule R22), which the unit only reads (rule R27). -/
  mem : Memory
  /-- The platform's map: MemValid and REG_BASE (rules R4, R22, R35). The first region that holds an address decides;
  where none does, there is plain memory. No step changes it (entry 4). -/
  map : List Region
  /-- Writes in flight, not ordered against the port's reads, oldest first (rules R33, R105; entry 8). -/
  posted : List (Addr × Byte)
  /-- MODEL'S OWN (entry 5): the events still to come, oldest first. -/
  pending : List Event
  /-- MODEL'S OWN (entry 6): what RegRead has returned to the host, newest first. -/
  returned : List Word
  /-- MODEL'S OWN (entry 7): the addresses the memory port has read, newest first. -/
  portReads : List Addr
  /-- MODEL'S OWN (entry 2): how many UNSPECIFIED_32 values have been drawn (rule R7). -/
  draws : Nat
  deriving DecidableEq, Repr

/-- Reasons to stop with a fault. There are none: the unit never halts, and every register access is served
(60_exceptions.md rule R91; entry 14). What the spec calls a fault is a next state with STATUS written (rule R88). -/
inductive Fault where
  deriving DecidableEq, Repr

/-- Reasons to refuse. -/
inductive Refusal where
  /-- An instruction without a meaning yet, by its mnemonic; raised by exec's refused arms only, of which there are none.
  Safe: it stops where the hardware goes on. -/
  | notModelled (mnemonic : String)
  deriving DecidableEq, Repr

/-- The machine after reset (70_reset_and_hazards.md rule R100). STATUS is 0, as the rule says. A, B, R and ACC are
unspecified there: DESIGN CHOICE, unsafe (entry 1): each holds 0. Memory lists nothing (entry 3), the map is empty, so
that every address answers (entry 4), and no event has come yet (entry 5). -/
def State.reset : State where
  a := 0#32
  b := 0#32
  r := 0#32
  acc := 0#32
  err := false
  cause := .none
  mem := []
  map := []
  posted := []
  pending := []
  returned := []
  portReads := []
  draws := 0

/-- How a step ends. -/
abbrev Result := Host.Outcome State Fault Refusal

end Sys2Proof.Machine
end

