-- ==== Sys2Proof/Machine/Flags.lean ====
section
/-! DEFINITION. The status register (10_state.md rule R16), the only flag of the unit (rule R17): its word as a host read
returns it, and a host write to it. -/

namespace Sys2Proof.Machine

/-- The 4-bit code of a cause (60_exceptions.md rule R86). -/
def Cause.code : Cause → BitVec 4
  | .none => 0#4
  | .illegalCmd => 1#4
  | .alignZero => 2#4
  | .alignOvf => 3#4
  | .npw2Range => 4#4
  | .ctzZero => 5#4
  | .busError => 6#4

/-- STATUS as a read returns it: CAUSE in bits 7:4, ERR in bit 0, every reserved bit 0 (rule R16). -/
def State.statusWord (s : State) : Word :=
  ((s.cause.code ++ 0#3) ++ BitVec.ofBool s.err).setWidth 32

/-- ERR and CAUSE become 0 and nothing else changes: the host's acknowledgement (60_exceptions.md rule R92). -/
def State.clearStatus (s : State) : State := { s with err := false, cause := .none }

/-- RegWrite to STATUS: bit 0 of the value clears, every other bit is ignored (rule R16). -/
def State.writeStatus (v : Word) (s : State) : State := if v.getLsbD 0 then s.clearStatus else s

end Sys2Proof.Machine
end

