-- ==== Sys2Proof/Machine/Ops.lean ====
section
/-! DEFINITION. The named operations over memory, map and registers, taking a fault (60_exceptions.md rule R88) and reset
(70_reset_and_hazards.md rule R100). The return from a fault is the host's acknowledgement, State.clearStatus of
Flags.lean (rule R92). -/

namespace Sys2Proof.Machine

/-! ## Memory -/

/-- The byte at an address. -/
def Memory.read : Memory → Nat → Byte
  | [], _ => Memory.unlisted
  | c :: m, a => if c.1 = a then c.2 else Memory.read m a

/-- The memory with nothing listed at an address. -/
def Memory.erase (m : Memory) (a : Nat) : Memory := m.filter (fun c => c.1 ≠ a)

/-- A cell put at its place by address. -/
def Memory.insert (a : Nat) (byte : Byte) : Memory → Memory
  | [] => [(a, byte)]
  | c :: m => if a < c.1 then (a, byte) :: c :: m else c :: Memory.insert a byte m

/-- A byte write that keeps the canonical form: writing what an unlisted address reads as removes the entry. -/
def Memory.write (m : Memory) (a : Nat) (byte : Byte) : Memory :=
  if byte = Memory.unlisted then m.erase a else Memory.insert a byte (m.erase a)

/-- Several byte writes, in order. -/
def Memory.writeAll : Memory → List (Addr × Byte) → Memory
  | m, [] => m
  | m, w :: ws => Memory.writeAll (m.write w.1.toNat w.2) ws

/-! ## The platform's map and the read port -/

/-- The region holds the address; a region that passes the top of the space continues at 0. -/
def holds (g : Region) (x : Addr) : Bool := (x - g.base).toNat < g.size

/-- The first region of the map that holds the address. -/
def State.regionAt (s : State) (x : Addr) : Option Region := s.map.find? (fun g => holds g x)

/-- MemValid: the platform answers a read of the address (00_scope.md rule R4). -/
def State.memValid (s : State) (x : Addr) : Bool :=
  match s.regionAt x with
  | some g => g.kind ≠ .refused
  | none => true

/-- Plain memory stands at the address: no region of the map holds it. -/
def State.plain (s : State) (x : Addr) : Bool := (s.regionAt x).isNone

/-- What the n-th read of the port sees of the writes in flight, the j-th and later of them given, over the byte seen so
far: each write to its address is seen or not, freely (20_memory.md rule R33; entry 8). -/
def seenByte (n : Nat) (x : Addr) : Nat → List (Addr × Byte) → Byte → Byte
  | _, [], cur => cur
  | j, w :: ws, cur => seenByte n x (j + 1) ws (if w.1 = x && Config.seesPosted n j then w.2 else cur)

/-- MemRead(x, 1) as the n-th read of the port: memory's byte under the writes in flight (rule R33), or, from a device or
the register block, a byte the spec does not define (rules R32, R106; entry 9). -/
def State.portByte (s : State) (n : Nat) (x : Addr) : Byte :=
  if s.plain x then seenByte n x 0 s.posted (s.mem.read x.toNat) else Config.freeByte n

/-! ## Registers -/

/-- RegRead: what a register reads as, CMD and the reserved numbers as 0 (10_state.md rules R10 to R18). -/
def State.readReg (s : State) : Reg → Word
  | .a => s.a
  | .b => s.b
  | .r => s.r
  | .acc => s.acc
  | .cmd => 0#32
  | .status => s.statusWord
  | .reserved6 => 0#32
  | .reserved7 => 0#32

/-- RegWrite as far as a register stores: R and the reserved numbers ignore it, STATUS is write-one-to-clear, and CMD
stores nothing (rules R11 to R18). What a write to CMD makes the unit do is in Access.lean. -/
def State.writeReg (q : Reg) (v : Word) (s : State) : State :=
  match q with
  | .a => { s with a := v }
  | .b => { s with b := v }
  | .r => s
  | .acc => { s with acc := v }
  | .cmd => s
  | .status => s.writeStatus v
  | .reserved6 => s
  | .reserved7 => s

/-- The result register, which commands write and the host does not (rule R13). -/
def State.setR (v : Word) (s : State) : State := { s with r := v }

/-- R <- UNSPECIFIED_32: the next free value (00_scope.md rule R7; entry 2). -/
def State.drawR (s : State) : State := { s with r := Config.freeWord s.draws, draws := s.draws + 1 }

/-- ACC <- UNSPECIFIED_32: the next free value (rule R7; entry 2). -/
def State.drawAcc (s : State) : State := { s with acc := Config.freeWord s.draws, draws := s.draws + 1 }

/-! ## Faults and reset -/

/-- raise Fault(c): the sticky update of STATUS, the first cause kept (60_exceptions.md rules R88, R89). -/
def State.raise (c : Cause) (s : State) : State :=
  if s.err then s else { s with err := true, cause := c }

/-- Reset of the unit inside a run: STATUS is 0, and A, B, R and ACC hold four independent UNSPECIFIED_32 values (rule
R100; entry 10). Memory, map and what the host still has to do are not the unit's and stay. -/
def State.unitReset (s : State) : State :=
  { s with
    a := Config.freeWord s.draws
    b := Config.freeWord (s.draws + 1)
    r := Config.freeWord (s.draws + 2)
    acc := Config.freeWord (s.draws + 3)
    err := false
    cause := .none
    draws := s.draws + 4 }

end Sys2Proof.Machine
end

