-- ==== Sys2Proof/Machine/Operands.lean ====
section
/-! DEFINITION. The operands of commands, all implicit: whole registers read as unsigned values (30_encoding.md rule R43).
There is no immediate, no addressing mode and no register field. -/

namespace Sys2Proof.Machine

/-- The first operand a: register A (rule R43). -/
def State.operandA (s : State) : Word := s.a

/-- The second operand b, or the alignment: register B (rule R43). -/
def State.operandB (s : State) : Word := s.b

/-- The running accumulator of CRC32: register ACC (rule R43). -/
def State.operandAcc (s : State) : Word := s.acc

/-- The buffer's byte count as a number, 0 to 2^32 - 1: register B (rule R43, 44_crc32.md rule R77). -/
def State.byteCount (s : State) : Nat := s.b.toNat

/-- The signed reading to_s32 of a 32-bit value; it changes no bit (00_scope.md rule R6). -/
def toS32 (v : Word) : Int := if v.getLsbD 31 then (v.toNat : Int) - 2 ^ 32 else v.toNat

end Sys2Proof.Machine
end

