-- ==== Sys2Proof/Machine/BitCount.lean ====
section
/-! DEFINITION. The bit counts CLZ, CTZ and POPC (42_bitcount.md). Each writes R with a count zero-extended to 32 bits. -/

namespace Sys2Proof.Machine

/-- Zero bits counted from bit n - 1 downward before the first 1 bit. -/
def leadingZeros (v : Word) : Nat → Nat
  | 0 => 0
  | n + 1 => if v.getLsbD n then 0 else leadingZeros v n + 1

/-- clz32: consecutive zero bits from bit 31 downward, 32 for the value 0 (00_scope.md rule R6, rule R62). -/
def clz32 (v : Word) : Nat := leadingZeros v 32

/-- Zero bits counted from bit k upward over n bits before the first 1 bit. -/
def trailingZeros (v : Word) (k : Nat) : Nat → Nat
  | 0 => 0
  | n + 1 => if v.getLsbD k then 0 else trailingZeros v (k + 1) n + 1

/-- ctz32: the number of the lowest set bit of a value that is not 0 (rule R6). No rule evaluates it at 0. -/
def ctz32 (v : Word) : Nat := trailingZeros v 0 32

/-- Set bits among the low n. -/
def onesBelow (v : Word) : Nat → Nat
  | 0 => 0
  | n + 1 => onesBelow v n + (if v.getLsbD n then 1 else 0)

/-- popcount32: the number of set bits (rule R6). -/
def popcount32 (v : Word) : Nat := onesBelow v 32

/-- CLZ, total (rule R62). -/
def execClz (s : State) : Result := .next (s.setR (BitVec.ofNat 32 (clz32 s.operandA)))

/-- CTZ: at 0 an unspecified result and the fault CTZ_ZERO (rule R63). -/
def execCtz (s : State) : Result :=
  if s.operandA = 0#32 then .next (s.drawR.raise .ctzZero)
  else .next (s.setR (BitVec.ofNat 32 (ctz32 s.operandA)))

/-- POPC, total (rule R64). -/
def execPopc (s : State) : Result := .next (s.setR (BitVec.ofNat 32 (popcount32 s.operandA)))

end Sys2Proof.Machine
end

