-- ==== Sys2Proof/Machine/Align.lean ====
section
/-! DEFINITION. Alignment rounding and the next power of two: ALIGND, ALIGNU and NPW2 (41_align_pow2.md). Each writes R;
each can fault, which is the sticky update of STATUS and nothing more. -/

namespace Sys2Proof.Machine

/-- The largest multiple of a non-zero alignment not above a (rule R55). The alignment need not be a power of two. -/
def alignDown (a alignment : Word) : Word := a - a % alignment

/-- The sum A + B - 1 over the integers, for B not 0 (rule R57). -/
def alignUpSum (a alignment : Word) : Nat := a.toNat + alignment.toNat - 1

/-- align_down of the 32-bit wrapped sum (rule R57, 90_conflicts.md C2). -/
def alignUp (a alignment : Word) : Word := alignDown (BitVec.ofNat 32 (alignUpSum a alignment)) alignment

/-- The smallest power of two not below a, for a in 1 .. 0x80000000 (rule R59). -/
def nextPow2 (a : Word) : Word := 1#32 <<< (32 - clz32 (a - 1#32))

/-- ALIGND: at B = 0 an unspecified result and the fault ALIGN_ZERO (rule R55). -/
def execAlignd (s : State) : Result :=
  if s.operandB = 0#32 then .next (s.drawR.raise .alignZero)
  else .next (s.setR (alignDown s.operandA s.operandB))

/-- ALIGNU: B = 0 is tested first; on overflow of the sum R keeps the wrapped value and the fault is ALIGN_OVF (rules
R57, R90). -/
def execAlignu (s : State) : Result :=
  if s.operandB = 0#32 then .next (s.drawR.raise .alignZero)
  else
    let done := s.setR (alignUp s.operandA s.operandB)
    if 2 ^ 32 ≤ alignUpSum s.operandA s.operandB then .next (done.raise .alignOvf) else .next done

/-- NPW2: outside 1 .. 0x80000000 an unspecified result and the fault NPW2_RANGE (rule R59, 90_conflicts.md C1). -/
def execNpw2 (s : State) : Result :=
  if s.operandA = 0#32 ∨ 0x80000000#32 < s.operandA then .next (s.drawR.raise .npw2Range)
  else .next (s.setR (nextPow2 s.operandA))

end Sys2Proof.Machine
end

