-- ==== Sys2Proof/Machine/Compare.lean ====
section
/-! DEFINITION. The comparators MAX, MIN and SCMP (40_compare.md). Each writes R and nothing else, and never faults. -/

namespace Sys2Proof.Machine

/-- The greater of two unsigned values (rule R50). -/
def maxU (a b : Word) : Word := if b ≤ a then a else b

/-- The lesser of two unsigned values (rule R51). -/
def minU (a b : Word) : Word := if a ≤ b then a else b

/-- The wrap-aware difference (a - b) mod 2^32 (rule R52). -/
def seqCompare (a b : Word) : Word := a - b

/-- MAX (rule R50). -/
def execMax (s : State) : Result := .next (s.setR (maxU s.operandA s.operandB))

/-- MIN (rule R51). -/
def execMin (s : State) : Result := .next (s.setR (minU s.operandA s.operandB))

/-- SCMP (rule R52). -/
def execScmp (s : State) : Result := .next (s.setR (seqCompare s.operandA s.operandB))

end Sys2Proof.Machine
end

