-- ==== Sys2Proof/Machine/Crc.lean ====
section
/-! DEFINITION. The CRC-32 engine and its command CRC32 (44_crc32.md). -/

namespace Sys2Proof.Machine

/-- One step of the reflected algorithm: shift toward bit 0, exclusive-or with the reflected polynomial when the bit
shifted out was 1 (rule R75). -/
def crcShift (c : Word) : Word :=
  if c.getLsbD 0 then (c >>> 1) ^^^ Config.crcPolyReflected else c >>> 1

/-- n steps of the loop of rule R75. -/
def crcShifts : Nat → Word → Word
  | 0, c => c
  | n + 1, c => crcShifts n (crcShift c)

/-- crc_byte: the byte meets the low 8 bits of the accumulator, then eight steps (rule R75). -/
def crcByte (acc : Word) (byte : Byte) : Word := crcShifts 8 (acc ^^^ byte.setWidth 32)

/-- crc_update: the left fold of crc_byte over a byte string (rule R76). -/
def crcUpdate : Word → List Byte → Word
  | acc, [] => acc
  | acc, byte :: bytes => crcUpdate (crcByte acc byte) bytes

/-- How the loop of rule R77 ends: the accumulator, or none where a read was refused, and the port's reads so far. -/
structure CrcRun where
  acc : Option Word
  reads : List Addr
  deriving DecidableEq, Repr

/-- The loop of rule R77 over n bytes from an address: each read in ascending order, once, until one is refused (rules
R26, R79). `reads` is every read the port has made so far, newest first. -/
def crcLoop (s : State) : Nat → Addr → Word → List Addr → CrcRun
  | 0, _, c, reads => ⟨some c, reads⟩
  | n + 1, x, c, reads =>
    if s.memValid x then crcLoop s n (x + 1#32) (crcByte c (s.portByte reads.length x)) (x :: reads)
    else ⟨none, reads⟩

/-- The loop of a whole CRC32 command over its first n bytes (rule R77). -/
def crcRun (s : State) (n : Nat) : CrcRun :=
  crcLoop s n s.operandA (s.operandAcc ^^^ Config.crcXor) s.portReads

/-- CRC32: folds B bytes at address A into ACC; at a refused read ACC is unspecified and the fault is BUS_ERROR (rules
R77, R79). -/
def execCrc32 (s : State) : Result :=
  let run := crcRun s s.byteCount
  match run.acc with
  | some c => .next { s with acc := c ^^^ Config.crcXor, portReads := run.reads }
  | none => .next (({ s with portReads := run.reads } : State).drawAcc.raise .busError)

/-- The addresses of a buffer of n bytes from an address, ascending, modulo 2^32 (20_memory.md rule R26). -/
def span (x : Addr) : Nat → List Addr
  | 0 => []
  | n + 1 => x :: span (x + 1#32) n

/-- What the port returns to reads of the given addresses in order, the first of them its n-th read (rules R32, R33). -/
def State.portBytes (s : State) : Nat → List Addr → List Byte
  | _, [] => []
  | n, x :: xs => s.portByte n x :: s.portBytes (n + 1) xs

/-- rev32: the 32 bits in reverse order (00_scope.md rule R6). -/
def rev32 (v : Word) : Word := v.reverse

end Sys2Proof.Machine
end

