-- ==== Sys2Proof/Machine/Endian.lean ====
section
/-! DEFINITION. The endian converter FROMLE32, TOLE32, FROMBE32 and TOBE32 (43_endian.md), at NATIVE_ORDER = little. The
contract of rule R66 in terms of byte strings stands beside it, for statements. -/

namespace Sys2Proof.Machine

/-- bswap32: the four bytes in reverse order (00_scope.md rule R6). -/
def bswap32 (v : Word) : Word :=
  ((v.extractLsb' 0 8 ++ v.extractLsb' 8 8) ++ v.extractLsb' 16 8) ++ v.extractLsb' 24 8

/-- FROMLE32: the identity (rule R67). -/
def execFromle32 (s : State) : Result := .next (s.setR s.operandA)

/-- TOLE32: the identity (rule R68). -/
def execTole32 (s : State) : Result := .next (s.setR s.operandA)

/-- FROMBE32: the byte swap (rule R69). -/
def execFrombe32 (s : State) : Result := .next (s.setR (bswap32 s.operandA))

/-- TOBE32: the byte swap (rule R70). -/
def execTobe32 (s : State) : Result := .next (s.setR (bswap32 s.operandA))

/-- enc_little and enc_big of rule R66: the 4-byte string of a value in the named order. -/
def encBytes (order : ByteOrder) (v : Word) : Vector Byte 4 :=
  match order with
  | .little => #v[v.extractLsb' 0 8, v.extractLsb' 8 8, v.extractLsb' 16 8, v.extractLsb' 24 8]
  | .big => #v[v.extractLsb' 24 8, v.extractLsb' 16 8, v.extractLsb' 8 8, v.extractLsb' 0 8]

/-- dec_little and dec_big of rule R66: the inverse of encBytes. -/
def decBytes (order : ByteOrder) (x : Vector Byte 4) : Word :=
  match order with
  | .little => ((x[3] ++ x[2]) ++ x[1]) ++ x[0]
  | .big => ((x[0] ++ x[1]) ++ x[2]) ++ x[3]

end Sys2Proof.Machine
end

