-- ==== Sys2Proof/Machine/Dispatch.lean ====
section
/-! DEFINITION. One arm per command: what each does to the state. -/

namespace Sys2Proof.Machine

def exec (i : Instr) (s : State) : Host.Outcome State Fault Refusal :=
  match i with
  | .max => Sys2Proof.Machine.execMax s
  | .min => Sys2Proof.Machine.execMin s
  | .scmp => Sys2Proof.Machine.execScmp s
  | .alignd => Sys2Proof.Machine.execAlignd s
  | .alignu => Sys2Proof.Machine.execAlignu s
  | .npw2 => Sys2Proof.Machine.execNpw2 s
  | .clz => Sys2Proof.Machine.execClz s
  | .ctz => Sys2Proof.Machine.execCtz s
  | .popc => Sys2Proof.Machine.execPopc s
  | .fromle32 => Sys2Proof.Machine.execFromle32 s
  | .tole32 => Sys2Proof.Machine.execTole32 s
  | .frombe32 => Sys2Proof.Machine.execFrombe32 s
  | .tobe32 => Sys2Proof.Machine.execTobe32 s
  | .crc32 => Sys2Proof.Machine.execCrc32 s

end Sys2Proof.Machine
end

