-- ==== Sys2Proof/Machine/Access.lean ====
section
/-! DEFINITION. Serving one event from outside: register accesses by number or on the bus, command words, memory writes
of other agents, reset (00_scope.md rule R8; 10_state.md rules R10 to R22; 70_reset_and_hazards.md rules R100, R101). -/

namespace Sys2Proof.Machine

/-- A word written to CMD: a command is executed whole; any other word raises ILLEGAL_CMD and does nothing else
(30_encoding.md rules R41, R44). -/
def execWord (w : Word) (s : State) : Result :=
  match decode w with
  | .ok i => exec i s
  | .error _ => .next (s.raise .illegalCmd)

/-- RegWrite(n, v) (00_scope.md rule R8). -/
def serveWrite (n : RegNum) (v : Word) (s : State) : Result :=
  if decodeReg n = .cmd then execWord v s else .next (s.writeReg (decodeReg n) v)

/-- RegRead(n): the value goes to the host and nothing of the unit changes (rule R8). -/
def serveRead (n : RegNum) (s : State) : State :=
  { s with returned := s.readReg (decodeReg n) :: s.returned }

/-- The register at a bus address, where the map places the register block: number i at byte offset 4 * i, a whole
aligned word (10_state.md rule R22). -/
def State.busReg (s : State) (x : Addr) : Option RegNum :=
  match s.regionAt x with
  | some g =>
    if g.kind = .registers ∧ (x - g.base).toNat % 4 = 0 ∧ (x - g.base).toNat / 4 < Config.nreg then
      some (BitVec.ofNat 3 ((x - g.base).toNat / 4))
    else none
  | none => none

/-- A bus write: a RegWrite where a register stands; elsewhere it does not reach the unit (rule R22; entry 11). -/
def serveBusWrite (x : Addr) (v : Word) (s : State) : Result :=
  match s.busReg x with
  | some n => serveWrite n v s
  | none => .next s

/-- A bus read: a RegRead where a register stands; elsewhere it does not reach the unit (rule R22; entry 11). -/
def serveBusRead (x : Addr) (s : State) : State :=
  match s.busReg x with
  | some n => serveRead n s
  | none => s

/-- The port's reads of a command word of which only the first k bytes can be read before reset takes effect; only CRC32
reads any (70_reset_and_hazards.md rule R101). -/
def abandonedReads (w : Word) (k : Nat) (s : State) : List Addr :=
  if (decode w).toOption = some .crc32 then (crcRun s (min k s.byteCount)).reads else s.portReads

/-- One event, served whole (rule R8). -/
def serve (e : Event) (s : State) : Result :=
  match e with
  | .regWrite n v => serveWrite n v s
  | .regRead n => .next (serveRead n s)
  | .busWrite x v => serveBusWrite x v s
  | .busRead x => .next (serveBusRead x s)
  | .memWrite x byte => .next { s with mem := s.mem.write x.toNat byte }
  | .memPost x byte => .next { s with posted := s.posted ++ [(x, byte)] }
  | .memPublish => .next { s with mem := s.mem.writeAll s.posted, posted := [] }
  | .reset => .next s.unitReset
  | .resetDuring w k => .next { s with portReads := abandonedReads w k s }.unitReset

end Sys2Proof.Machine
end

