-- ==== Sys2Proof/Machine/Step.lean ====
section
/-! DEFINITION. One step of the machine: the next event from outside, served whole (00_scope.md rule R8). There is no
program counter and no fetch (10_state.md rule R19): a command arrives as the data of a host write to CMD. -/

namespace Sys2Proof.Machine

/-- The oldest pending event is taken and served; with none the unit is idle and keeps its state (10_state.md rule R21,
60_exceptions.md rule R95; entry 5). -/
def step (s : State) : Host.Outcome State Fault Refusal :=
  match s.pending with
  | [] => .next s
  | e :: rest => serve e { s with pending := rest }

/-- The state in which the host's very next access writes to CMD the word whose low nbits bits are those of w and whose
other bits are 0: the place a command is taken from (10_state.md rule R15; entry 5). -/
def State.withFetchWord (s : State) (nbits w : Nat) : State :=
  { s with pending := .regWrite (encodeReg .cmd) (BitVec.ofNat 32 (w % 2 ^ nbits)) :: s.pending }

end Sys2Proof.Machine
end

