-- ==== Sys2Proof/Safety.lean ====
section
/-! DEFINITION. The terms statements use: the invariant every step keeps, the legal values of STATUS, and when a command
can be trusted (70_reset_and_hazards.md rule R107). -/

namespace Sys2Proof.Machine

/-- CAUSE is 0 exactly when ERR is 0 (10_state.md rule R16). -/
abbrev State.statusLegal (s : State) : Prop := s.err = false ↔ s.cause = .none

/-- What every step keeps: memory in canonical form and a legal STATUS. -/
abbrev State.Inv (s : State) : Prop := s.mem.wf ∧ s.statusLegal

/-- Every address of the buffer A .. A + B - 1 answers (rule R107: a valid span). -/
abbrev State.spanValid (s : State) : Prop := ∀ x ∈ span s.a s.byteCount, s.memValid x = true

/-- The fault a command raises from a state, none where its precondition holds (60_exceptions.md rules R86, R90). -/
def faultOf (i : Instr) (s : State) : Cause :=
  match i with
  | .alignd => if s.b = 0#32 then .alignZero else .none
  | .alignu =>
    if s.b = 0#32 then .alignZero else if 2 ^ 32 ≤ s.a.toNat + s.b.toNat - 1 then .alignOvf else .none
  | .npw2 => if s.a = 0#32 ∨ 0x80000000 < s.a.toNat then .npw2Range else .none
  | .ctz => if s.a = 0#32 then .ctzZero else .none
  | .crc32 => if s.spanValid then .none else .busError
  | .max | .min | .scmp | .clz | .popc | .fromle32 | .tole32 | .frombe32 | .tobe32 => .none

/-- A state with a fault recorded: ERR is 1, and CAUSE keeps the first cause (60_exceptions.md rules R88, R89). -/
def State.faulted (s : State) (c : Cause) : State :=
  { s with err := true, cause := if s.err then s.cause else c }

/-- The addresses of a buffer of n bytes: (A + i) mod 2^32 for i = 0 .. n - 1 (20_memory.md rule R26). -/
def bufferAddrs (x : Addr) (n : Nat) : List Addr := (List.range n).map fun i => BitVec.ofNat 32 (x.toNat + i)

/-- The bytes memory holds at those addresses: M[A], M[A + 1], ... of rule R77. -/
def bufferBytes (m : Memory) (x : Addr) (n : Nat) : List Byte :=
  (List.range n).map fun i => m.read ((x.toNat + i) % 2 ^ 32)

/-- The buffer lies in plain memory and no write to it is in flight (20_memory.md rule R33, the caller's duty of
70_reset_and_hazards.md rules R105 and R106). -/
abbrev State.spanQuiet (s : State) (x : Addr) (n : Nat) : Prop :=
  ∀ y ∈ bufferAddrs x n, s.plain y = true ∧ ∀ w ∈ s.posted, w.1 ≠ y

/-- The register an event writes and the value, if it is a RegWrite, by number or on the bus (rules R8, R22). -/
def registerWrite (s : State) (e : Event) : Option (Reg × Word) :=
  match e with
  | .regWrite n v => some (decodeReg n, v)
  | .busWrite x v => (s.busReg x).map fun n => (decodeReg n, v)
  | .regRead _ | .busRead _ | .memWrite _ _ | .memPost _ _ | .memPublish | .reset | .resetDuring _ _ => none

/-- The event is a reset, between commands or during one (rules R100, R101). -/
def Event.isReset : Event → Bool
  | .reset | .resetDuring _ _ => true
  | .regWrite _ _ | .regRead _ | .busWrite _ _ | .busRead _ | .memWrite _ _ | .memPost _ _ | .memPublish => false

end Sys2Proof.Machine
end

