-- ==== Sys2Proof/Certificates/Slice0/Obligations.lean ====
section
/-! DEFINITION. The statements about the model, from the numbered rules of spec/. A claim about a free value (an
UNSPECIFIED_32, a byte the bus returns, a race) holds whatever that value is: the constants Config.freeWord,
Config.freeByte and Config.seesPosted have no body. -/

open Sys2Proof Sys2Proof.Machine

/-! ## Encoding (30_encoding.md) -/

/-- Rule R41: a word is a command exactly when it is one of the fourteen `match` words; a word with a non-zero upper
field is not; every other word is refused; and each command has exactly one word, that of its encoding. -/
def Obligations.DecoderAcceptsExactlyTheFourteenWords : Prop :=
  (∀ w : Word, (∃ i, decode w = .ok i) ↔ legalWord w = true) ∧
  (∀ w : Word, w.extractLsb' 8 24 ≠ 0#24 → ∃ e, decode w = .error e) ∧
  (∀ w : Word, legalWord w = false → ∃ e, decode w = .error e) ∧
  (∀ (w : Word) (i : Instr), decode w = .ok i ↔ encode i = w)

/-- Rule R42: the `match` column decodes row by row to the mnemonics. -/
def Obligations.OpcodeMapDecodesRowByRow : Prop :=
  matchWords.map (fun w => (decode w).toOption) =
    [some .max, some .min, some .scmp, some .alignd, some .alignu, some .npw2, some .clz, some .ctz, some .popc,
     some .fromle32, some .tole32, some .frombe32, some .tobe32, some .crc32]

/-- Rule R44: an illegal word raises ILLEGAL_CMD and changes nothing else; among the 256 words with a zero upper field
242 are illegal; 0x00000000 and 0xFFFFFFFF are; and the unit then takes the next event. -/
def Obligations.IllegalWordRaisesIllegalCmdAndNothingElse : Prop :=
  (∀ (w : Word) (s : State), legalWord w = false → execWord w s = .next (s.faulted .illegalCmd)) ∧
  (∀ w : Word, w.extractLsb' 8 24 ≠ 0#24 → legalWord w = false) ∧
  ((List.range 256).countP (fun n => !legalWord (BitVec.ofNat 32 n)) = 242) ∧
  legalWord 0x00000000#32 = false ∧ legalWord 0xFFFFFFFF#32 = false ∧
  (∀ (w : Word) (s : State) (rest : List Event), s.pending = .regWrite 4#3 w :: rest → legalWord w = false →
    step s = .next (({ s with pending := rest } : State).faulted .illegalCmd))

/-- Rule R46: an assembler line is one register access; a bare mnemonic is a write of its word to CMD, and serving it
is the command. -/
def Obligations.AssemblerLineIsOneRegisterAccess : Prop :=
  (∀ (q : Reg) (v : Word), (Line.wr q v).event = .regWrite (encodeReg q) v ∧ decodeReg (encodeReg q) = q) ∧
  (∀ q : Reg, (Line.rd q).event = .regRead (encodeReg q)) ∧
  (∀ i : Instr, (Line.command i).event = .regWrite 4#3 (encode i)) ∧
  (∀ (i : Instr) (s : State) (rest : List Event), s.pending = (Line.command i).event :: rest →
    step s = exec i { s with pending := rest })

/-! ## The step -/

/-- Rule R15: a write to CMD is not stored but decoded and executed whole, and a read of CMD returns 0 and changes
nothing but what the host has been given. -/
def Obligations.StepRunsTheWordWrittenToCmd : Prop :=
  (∀ (s : State) (w : Word) (i : Instr) (rest : List Event), s.pending = .regWrite 4#3 w :: rest → decode w = .ok i →
    step s = exec i { s with pending := rest }) ∧
  (∀ (s : State) (w : Word) (e : DecodeError) (rest : List Event), s.pending = .regWrite 4#3 w :: rest →
    decode w = .error e → step s = .next (({ s with pending := rest } : State).faulted .illegalCmd)) ∧
  (∀ (s : State) (rest : List Event), s.pending = .regRead 4#3 :: rest →
    step s = .next { s with pending := rest, returned := 0x00000000#32 :: s.returned })

/-- The model's own placing of a command (entry 5): the next step runs what the decoder reads. -/
def Obligations.PlacedWordRunsAtTheNextStep : Prop :=
  ∀ (s : State) (nbits w : Nat) (i : Instr), decodeTableWord nbits w = some i →
    step (s.withFetchWord nbits w) = exec i s

/-- Rules R91 and R108: no state is stuck; every step answers a next state, and takes one event off. -/
def Obligations.EveryStepAnswersANextState : Prop :=
  ∀ s : State, ∃ t, step s = .next t ∧ t.pending = s.pending.drop 1

/-- Every state with memory in canonical form and a legal STATUS steps to such a state. -/
def Obligations.StepKeepsMemoryFormAndLegalStatus : Prop :=
  ∀ s t : State, s.Inv → step s = .next t → t.Inv

/-- The machine after reset has memory in canonical form and a legal STATUS. -/
def Obligations.ResetHasMemoryFormAndLegalStatus : Prop := State.reset.Inv

/-- With no event the unit is idle and its state stays as it is (entry 5; rules R21, R95). -/
def Obligations.IdleUnitKeepsItsState : Prop :=
  ∀ s : State, s.pending = [] → step s = .next s

/-- Which events can change each register, STATUS and the record of the port's reads (rules R9, R11 to R14, R16, R25):
A and B change only by a host write to them or reset, R only by a command other than CRC32 or reset, ACC only by a host
write, CRC32 or reset, STATUS only by a clearing write, a write to CMD or reset, and the port reads only for CRC32. -/
def Obligations.OnlyTheseEventsChangeEachRegister : Prop :=
  ∀ (s t : State) (e : Event) (rest : List Event), s.pending = e :: rest → step s = .next t →
    (t.a ≠ s.a → (∃ v, registerWrite s e = some (.a, v) ∧ t.a = v) ∨ e.isReset = true) ∧
    (t.b ≠ s.b → (∃ v, registerWrite s e = some (.b, v) ∧ t.b = v) ∨ e.isReset = true) ∧
    (t.r ≠ s.r → (∃ w i, registerWrite s e = some (.cmd, w) ∧ decode w = .ok i ∧ i ≠ .crc32) ∨ e.isReset = true) ∧
    (t.acc ≠ s.acc → (∃ v, registerWrite s e = some (.acc, v) ∧ t.acc = v) ∨
      (∃ w, registerWrite s e = some (.cmd, w) ∧ decode w = .ok .crc32) ∨ e.isReset = true) ∧
    (t.err ≠ s.err ∨ t.cause ≠ s.cause → (∃ v, registerWrite s e = some (.status, v) ∧ v.getLsbD 0 = true) ∨
      (∃ w, registerWrite s e = some (.cmd, w)) ∨ e.isReset = true) ∧
    (t.portReads ≠ s.portReads → (∃ w, registerWrite s e = some (.cmd, w) ∧ decode w = .ok .crc32) ∨
      ∃ w k, e = .resetDuring w k ∧ decode w = .ok .crc32)

/-- Rule R27: no command and no register access writes memory; every byte reads as before. That reset leaves memory alone
is DEDUCED (entry 10), and so it is that a bus write outside the register block does (entry 11). -/
def Obligations.UnitNeverWritesMemory : Prop :=
  (∀ (i : Instr) (s t : State), exec i s = .next t →
    t.mem = s.mem ∧ ∀ x : Addr, t.mem.read x.toNat = s.mem.read x.toNat) ∧
  (∀ (s t : State) (e : Event) (rest : List Event), s.pending = e :: rest → step s = .next t →
    (∀ x byte, e ≠ .memWrite x byte) → e ≠ .memPublish →
    t.mem = s.mem ∧ ∀ x : Addr, t.mem.read x.toNat = s.mem.read x.toNat)

/-- The platform's map stays as it is through every step (entry 4). -/
def Obligations.NoStepChangesThePlatformMap : Prop :=
  ∀ s t : State, step s = .next t → t.map = s.map

/-! ## Reset (70_reset_and_hazards.md) -/

/-- STATUS after reset is 0, CMD and the reserved numbers read 0, nothing is in flight and the port has read nothing.
The zeros of A, B, R and ACC are the model's choice (entry 1), as are the empty memory, map and lists (entries 3 to 8). -/
def Obligations.ResetClearsStatus : Prop :=
  State.reset.err = false ∧ State.reset.cause = .none ∧ State.reset.readReg .status = 0x00000000#32 ∧
  State.reset.readReg .cmd = 0x00000000#32 ∧ State.reset.a = 0#32 ∧ State.reset.b = 0#32 ∧ State.reset.r = 0#32 ∧
  State.reset.acc = 0#32 ∧ (∀ x : Addr, State.reset.mem.read x.toNat = 0#8) ∧
  (∀ x : Addr, State.reset.memValid x = true)

/-- Rules R23 and R100 for a reset inside a run: STATUS is 0 and reads 0, CMD reads 0, A, B, R and ACC take four free
values drawn in turn, and the data space is not touched. -/
def Obligations.ResetEventDrawsFourFreeRegisters : Prop :=
  ∀ (s : State) (rest : List Event), s.pending = .reset :: rest →
    ∃ t, step s = .next t ∧
      t = { s with pending := rest, a := Config.freeWord s.draws, b := Config.freeWord (s.draws + 1),
                   r := Config.freeWord (s.draws + 2), acc := Config.freeWord (s.draws + 3), err := false,
                   cause := .none, draws := s.draws + 4 } ∧
      t.readReg .status = 0x00000000#32 ∧ t.readReg .cmd = 0x00000000#32

/-- Rule R101: a reset that meets CRC32 after at most k reads abandons it: the reads made are the first k addresses of
the buffer that answer, no later one is read, and the state is that of reset. Any other command word reads nothing. -/
def Obligations.ResetDuringCommandAbandonsIt : Prop :=
  ∀ (s : State) (w : Word) (k : Nat) (rest : List Event), s.pending = .resetDuring w k :: rest →
    ∃ t, step s = .next t ∧ t.err = false ∧ t.cause = .none ∧
      t.a = Config.freeWord s.draws ∧ t.b = Config.freeWord (s.draws + 1) ∧ t.r = Config.freeWord (s.draws + 2) ∧
      t.acc = Config.freeWord (s.draws + 3) ∧ t.mem = s.mem ∧
      (decode w = .ok .crc32 → t.portReads =
        (((bufferAddrs s.a s.b.toNat).takeWhile s.memValid).take k).reverse ++ s.portReads) ∧
      (decode w ≠ .ok .crc32 → t.portReads = s.portReads)

/-! ## Register accesses (10_state.md) -/

/-- Rules R11, R12 and R14: a host write to A, B or ACC stores the value and nothing else; a read returns what the
register holds and changes nothing but what the host has been given. -/
def Obligations.HostWritesAndReadsOperandRegisters : Prop :=
  ∀ (s : State) (v : Word) (rest : List Event),
    (s.pending = .regWrite 0#3 v :: rest → step s = .next { s with pending := rest, a := v }) ∧
    (s.pending = .regWrite 1#3 v :: rest → step s = .next { s with pending := rest, b := v }) ∧
    (s.pending = .regWrite 3#3 v :: rest → step s = .next { s with pending := rest, acc := v }) ∧
    (s.pending = .regRead 0#3 :: rest → step s = .next { s with pending := rest, returned := s.a :: s.returned }) ∧
    (s.pending = .regRead 1#3 :: rest → step s = .next { s with pending := rest, returned := s.b :: s.returned }) ∧
    (s.pending = .regRead 2#3 :: rest → step s = .next { s with pending := rest, returned := s.r :: s.returned }) ∧
    (s.pending = .regRead 3#3 :: rest → step s = .next { s with pending := rest, returned := s.acc :: s.returned })

/-- Rule R18: reads of numbers 6 and 7 return 0; writes to 2, 6 and 7 change nothing and raise no fault; there are
eight numbers, each naming a register of its own. -/
def Obligations.StrayAccessesChangeNothing : Prop :=
  (∀ (s : State) (n : RegNum) (rest : List Event), n = 6#3 ∨ n = 7#3 → s.pending = .regRead n :: rest →
    step s = .next { s with pending := rest, returned := 0x00000000#32 :: s.returned }) ∧
  (∀ (s : State) (n : RegNum) (v : Word) (rest : List Event), n = 2#3 ∨ n = 6#3 ∨ n = 7#3 →
    s.pending = .regWrite n v :: rest → step s = .next { s with pending := rest }) ∧
  (∀ n : RegNum, encodeReg (decodeReg n) = n)

/-- Rule R16: STATUS reads as CAUSE shifted left by 4 with ERR in bit 0; a read does not clear; a write with bit 0 set
clears ERR and CAUSE and any other write changes nothing; no command clears ERR, and a command that faults with ERR at 0
sets it with its cause; it is 0 after reset; the legal values are 0 and (c << 4) | 1 for c in 1 to 6, each cause with the
code that 60_exceptions.md rule R86 gives it. -/
def Obligations.StatusReadsAndClearsAsItsFieldsSay : Prop :=
  (∀ s : State, s.statusWord =
    (s.cause.code.setWidth 32 <<< 4) ||| (if s.err then 0x00000001#32 else 0x00000000#32)) ∧
  (∀ (s : State) (rest : List Event), s.pending = .regRead 5#3 :: rest →
    step s = .next { s with pending := rest, returned := s.statusWord :: s.returned }) ∧
  (∀ (s : State) (v : Word) (rest : List Event), s.pending = .regWrite 5#3 v :: rest → v.getLsbD 0 = true →
    step s = .next { s with pending := rest, err := false, cause := .none }) ∧
  (∀ (s : State) (v : Word) (rest : List Event), s.pending = .regWrite 5#3 v :: rest → v.getLsbD 0 = false →
    step s = .next { s with pending := rest }) ∧
  (∀ (i : Instr) (s t : State), exec i s = .next t → s.statusLegal →
    (s.err = true → t.err = true ∧ t.cause = s.cause) ∧
    (s.err = false → t.cause = faultOf i s ∧ (t.err = true ↔ faultOf i s ≠ .none))) ∧
  State.reset.statusWord = 0x00000000#32 ∧
  (∀ s : State, s.statusLegal → s.statusWord = 0#32 ∨
    ∃ c : Nat, 1 ≤ c ∧ c ≤ 6 ∧ s.statusWord = BitVec.ofNat 32 (c * 16 + 1)) ∧
  (∀ s : State, s.statusLegal →
    (s.cause = .none → s.statusWord = 0x00000000#32) ∧ (s.cause = .illegalCmd → s.statusWord = 0x00000011#32) ∧
    (s.cause = .alignZero → s.statusWord = 0x00000021#32) ∧ (s.cause = .alignOvf → s.statusWord = 0x00000031#32) ∧
    (s.cause = .npw2Range → s.statusWord = 0x00000041#32) ∧ (s.cause = .ctzZero → s.statusWord = 0x00000051#32) ∧
    (s.cause = .busError → s.statusWord = 0x00000061#32))

/-- Rule R22: where the first region of the map that holds an address is the register block, placed at REG_BASE, and the
address is that of register n, at byte offset 4 * n, a step that serves a bus access there is the step that serves the
access by number. A bus access where no register block stands changes nothing of the unit (DEDUCED, entry 11). -/
def Obligations.BusAccessReachesRegisterAtFourTimesItsNumber : Prop :=
  (∀ (s : State) (g : Region) (n : RegNum) (v : Word) (rest : List Event),
    s.regionAt (g.base + BitVec.ofNat 32 (4 * n.toNat)) = some g → g.kind = .registers →
    (s.pending = .busWrite (g.base + BitVec.ofNat 32 (4 * n.toNat)) v :: rest →
      step s = step { s with pending := .regWrite n v :: rest }) ∧
    (s.pending = .busRead (g.base + BitVec.ofNat 32 (4 * n.toNat)) :: rest →
      step s = step { s with pending := .regRead n :: rest })) ∧
  (∀ (s : State) (x : Addr) (v : Word) (rest : List Event),
    (∀ g, s.regionAt x = some g → g.kind ≠ .registers) →
    s.pending = .busWrite x v :: rest ∨ s.pending = .busRead x :: rest →
    step s = .next { s with pending := rest })

/-! ## Faults (60_exceptions.md) -/

/-- Rules R86, R87 and R90: a command raises the one fault its operands call for, and where they call for none STATUS
stays as it is; the causes have the codes 0 to 6. -/
def Obligations.EachCommandRaisesItsOwnCause : Prop :=
  (∀ (i : Instr) (s : State), ∃ t, exec i s = .next t ∧
    (faultOf i s = .none → t.err = s.err ∧ t.cause = s.cause) ∧
    (faultOf i s ≠ .none → t.err = true ∧ t.cause = if s.err then s.cause else faultOf i s)) ∧
  [Cause.none, .illegalCmd, .alignZero, .alignOvf, .npw2Range, .ctzZero, .busError].map Cause.code =
    [0#4, 1#4, 2#4, 3#4, 4#4, 5#4, 6#4]

/-- Rule R88, the raise alone: with ERR at 0 it records the cause and sets ERR, otherwise it changes nothing. -/
def Obligations.RaiseRecordsTheFirstCause : Prop :=
  ∀ (c : Cause) (s : State),
    (s.err = false → s.raise c = { s with err := true, cause := c }) ∧ (s.err = true → s.raise c = s)

/-- Rule R89: once set, ERR and CAUSE stay through every event but a clearing write to STATUS and reset; and a command
does the same with ERR at 1 as with ERR at 0, STATUS apart. -/
def Obligations.FaultStaysUntilClearedOrReset : Prop :=
  (∀ (s t : State) (e : Event) (rest : List Event), s.err = true → s.pending = e :: rest → step s = .next t →
    (t.err = true ∧ t.cause = s.cause) ∨
      (∃ v, registerWrite s e = some (.status, v) ∧ v.getLsbD 0 = true) ∨ e.isReset = true) ∧
  (∀ (i : Instr) (s t : State) (c : Cause), exec i s = .next t →
    exec i { s with err := true, cause := c } = .next { t with err := true, cause := c })

/-- Rule R92: a write of 1 to bit 0 of STATUS clears ERR and CAUSE and restores nothing else; a fault while one stands
is absorbed. -/
def Obligations.HostAcknowledgesAFault : Prop :=
  (∀ (s : State) (v : Word) (rest : List Event), s.pending = .regWrite 5#3 v :: rest → v.getLsbD 0 = true →
    step s = .next { s with pending := rest, err := false, cause := .none }) ∧
  (∀ (s : State) (c : Cause), s.err = true → (s.raise c).err = true ∧ (s.raise c).cause = s.cause)

/-- Rule R7: a command that puts an unspecified value into R or ACC leaves ERR at 1; it draws at most one. -/
def Obligations.UnspecifiedResultLeavesErrSet : Prop :=
  ∀ (i : Instr) (s t : State), exec i s = .next t →
    t.draws = s.draws ∨ (t.draws = s.draws + 1 ∧ t.err = true)

/-! ## What a command leaves alone -/

/-- The frame of the thirteen commands other than CRC32: they write R, and STATUS on a fault; everything else, every
byte of memory included, is as before. Where the operands call for no fault STATUS and the draws are as before too; for
the nine total ones that is always so. -/
def Obligations.FrameOfTheResultCommands : Prop :=
  ∀ (i : Instr) (s t : State), i ≠ .crc32 → exec i s = .next t →
    t.a = s.a ∧ t.b = s.b ∧ t.acc = s.acc ∧ t.map = s.map ∧ t.posted = s.posted ∧ t.pending = s.pending ∧
    t.returned = s.returned ∧ t.portReads = s.portReads ∧
    (∀ x : Addr, t.mem.read x.toNat = s.mem.read x.toNat) ∧
    (i ∈ [Instr.max, .min, .scmp, .clz, .popc, .fromle32, .tole32, .frombe32, .tobe32] →
      t.err = s.err ∧ t.cause = s.cause ∧ t.draws = s.draws) ∧
    (faultOf i s = .none → t.err = s.err ∧ t.cause = s.cause ∧ t.draws = s.draws)

/-- The frame of CRC32: it writes ACC, and STATUS on a fault, and its reads are recorded; A, B, R and everything else,
every byte of memory included, is as before; and where every address of the buffer answers, STATUS and the draws are too. -/
def Obligations.FrameOfCrc32 : Prop :=
  ∀ s t : State, exec .crc32 s = .next t →
    t.a = s.a ∧ t.b = s.b ∧ t.r = s.r ∧ t.map = s.map ∧ t.posted = s.posted ∧ t.pending = s.pending ∧
    t.returned = s.returned ∧ (∀ x : Addr, t.mem.read x.toNat = s.mem.read x.toNat) ∧
    (faultOf .crc32 s = .none → t.err = s.err ∧ t.cause = s.cause ∧ t.draws = s.draws)

/-- The `reads` column of rule R42: a result depends on A, and on B for the five two-operand commands, and on nothing
else but the free value where it is unspecified. -/
def Obligations.ResultDependsOnTheReadColumnOnly : Prop :=
  ∀ (i : Instr) (s u t v : State), i ≠ .crc32 → s.a = u.a → s.draws = u.draws →
    (i ∈ [Instr.max, .min, .scmp, .alignd, .alignu] → s.b = u.b) →
    exec i s = .next t → exec i u = .next v → t.r = v.r

/-- Rule R43: a command reads its operands and leaves them, so a command whose result is specified gives the same state
when it is repeated. -/
def Obligations.RepeatedCommandChangesNothingMore : Prop :=
  ∀ (i : Instr) (s t : State), i ≠ .crc32 → exec i s = .next t → t.draws = s.draws → exec i t = .next t

/-! ## Comparators (40_compare.md) -/

/-- Rule R50. -/
def Obligations.MaxIsTheGreaterUnsigned : Prop :=
  decode 0x00000010#32 = .ok .max ∧
  (∀ s : State, exec .max s = .next { s with r := if s.b.toNat ≤ s.a.toNat then s.a else s.b }) ∧
  (∀ a : Word, maxU a a = a ∧ maxU a 0#32 = a ∧ maxU a 0xFFFFFFFF#32 = 0xFFFFFFFF#32) ∧
  (∀ a b : Word, maxU a b = a ∨ maxU a b = b) ∧
  maxU 0x7FFFFFFF#32 0x80000000#32 = 0x80000000#32

/-- Rule R51. -/
def Obligations.MinIsTheLesserUnsigned : Prop :=
  decode 0x00000011#32 = .ok .min ∧
  (∀ s : State, exec .min s = .next { s with r := if s.a.toNat ≤ s.b.toNat then s.a else s.b }) ∧
  (∀ a : Word, minU a a = a ∧ minU a 0#32 = 0#32 ∧ minU a 0xFFFFFFFF#32 = a) ∧
  (∀ a b : Word, (minU a b).toNat ≤ (maxU a b).toNat ∧
    ((minU a b = a ∧ maxU a b = b) ∨ (minU a b = b ∧ maxU a b = a))) ∧
  minU 0x7FFFFFFF#32 0x80000000#32 = 0x7FFFFFFF#32 ∧ minU 3#32 10#32 = 3#32

/-- Rule R52: R is (A - B) mod 2^32, computed over the integers and brought back to 32 bits; its sign is read from bit
31; equal operands give 0; at the distance 2^31 both orders give 0x80000000. -/
def Obligations.ScmpIsTheWrappedDifference : Prop :=
  decode 0x00000012#32 = .ok .scmp ∧
  (∀ s : State, exec .scmp s = .next { s with r := BitVec.ofInt 32 ((s.a.toNat : Int) - (s.b.toNat : Int)) }) ∧
  (∀ a b : Word, (seqCompare a b = 0#32 ↔ a = b) ∧
    ((seqCompare a b).getLsbD 31 = true ↔ toS32 (seqCompare a b) < 0) ∧
    (seqCompare a b ≠ 0#32 → (seqCompare a b).getLsbD 31 = false → 0 < toS32 (seqCompare a b)) ∧
    (-(2 : Int) ^ 31 ≤ toS32 (seqCompare a b) ∧ toS32 (seqCompare a b) < (2 : Int) ^ 31)) ∧
  (∀ a b : Word, a - b = 0x80000000#32 → seqCompare a b = 0x80000000#32 ∧ seqCompare b a = 0x80000000#32) ∧
  (∀ a : Word, seqCompare a (a + 1#32) = 0xFFFFFFFF#32 ∧ seqCompare (a + 1#32) a = 0x00000001#32) ∧
  seqCompare 0x00000002#32 0xFFFFFFFF#32 = 0x00000003#32 ∧ toS32 (seqCompare 0xFFFFFFFF#32 0#32) < 0

/-- Rule R53: over unbounded counters the signed result is their true distance where that fits 32 bits, and otherwise
that distance reduced modulo 2^32 into the signed range. -/
def Obligations.ScmpAgreesWithTheTrueDistanceInRange : Prop :=
  ∀ x y : Int,
    (-(2 : Int) ^ 31 ≤ x - y → x - y ≤ 2 ^ 31 - 1 →
      toS32 (seqCompare (BitVec.ofInt 32 x) (BitVec.ofInt 32 y)) = x - y) ∧
    toS32 (seqCompare (BitVec.ofInt 32 x) (BitVec.ofInt 32 y)) = (x - y).bmod (2 ^ 32)

/-- Rule R54: the neighbours of every value compare as -1 and +1, without exception. -/
def Obligations.ScmpOrdersNeighboursWithoutException : Prop :=
  ∀ a : Word, toS32 (seqCompare a (a + 1#32)) = -1 ∧ toS32 (seqCompare (a + 1#32) a) = 1 ∧
    toS32 (seqCompare a a) = 0

/-! ## Alignment and power of two (41_align_pow2.md) -/

/-- Rule R55. -/
def Obligations.AligndRoundsDownToAMultiple : Prop :=
  decode 0x00000020#32 = .ok .alignd ∧
  (∀ s : State, s.b = 0#32 → exec .alignd s =
    .next (({ s with r := Config.freeWord s.draws, draws := s.draws + 1 } : State).faulted .alignZero)) ∧
  (∀ s : State, s.b ≠ 0#32 → exec .alignd s =
    .next { s with r := BitVec.ofNat 32 (s.a.toNat - s.a.toNat % s.b.toNat) }) ∧
  (∀ a b : Word, b ≠ 0#32 → (alignDown a b).toNat ≤ a.toNat ∧ b.toNat ∣ (alignDown a b).toNat ∧
    (∀ m : Nat, b.toNat ∣ m → m ≤ a.toNat → m ≤ (alignDown a b).toNat) ∧
    (a.toNat < b.toNat → alignDown a b = 0#32) ∧ (b.toNat ∣ a.toNat → alignDown a b = a)) ∧
  (∀ a : Word, alignDown a 1#32 = a ∧
    alignDown a 0xFFFFFFFF#32 = if a = 0xFFFFFFFF#32 then 0xFFFFFFFF#32 else 0#32) ∧
  (∀ (a : Word) (k : Nat), k < 32 → alignDown a (1#32 <<< k) = a &&& ~~~((1#32 <<< k) - 1#32)) ∧
  alignDown 0x12345678#32 0x00001000#32 = 0x12345000#32 ∧ alignDown 100#32 7#32 = 98#32

/-- Rule R56: the source's inequalities hold over the integers, and in their 32-bit form. -/
def Obligations.AligndResultBracketsItsOperand : Prop :=
  ∀ a b : Word, b ≠ 0#32 →
    (alignDown a b).toNat ≤ a.toNat ∧ a.toNat < (alignDown a b).toNat + b.toNat ∧
    (alignDown a b).toNat % b.toNat = 0 ∧ a - alignDown a b < b

/-- Rule R57: B = 0 is tested first; otherwise R is align_down of the wrapped sum, and the fault ALIGN_OVF is raised
exactly when the sum over the integers reaches 2^32, R keeping the wrapped value. That a multiple of B gives itself
holds where the sum does not overflow, as the pseudocode and the vectors of 95_test_vectors.md have it. -/
def Obligations.AlignuRoundsUpOrReportsOverflow : Prop :=
  decode 0x00000021#32 = .ok .alignu ∧
  (∀ s : State, s.b = 0#32 → exec .alignu s =
    .next (({ s with r := Config.freeWord s.draws, draws := s.draws + 1 } : State).faulted .alignZero)) ∧
  (∀ s : State, s.b ≠ 0#32 → s.a.toNat + s.b.toNat - 1 < 2 ^ 32 → exec .alignu s = .next { s with
    r := BitVec.ofNat 32 ((s.a.toNat + s.b.toNat - 1) - (s.a.toNat + s.b.toNat - 1) % s.b.toNat) }) ∧
  (∀ s : State, s.b ≠ 0#32 → 2 ^ 32 ≤ s.a.toNat + s.b.toNat - 1 → exec .alignu s = .next (({ s with
    r := BitVec.ofNat 32 ((s.a.toNat + s.b.toNat - 1) % 2 ^ 32
      - (s.a.toNat + s.b.toNat - 1) % 2 ^ 32 % s.b.toNat) } : State).faulted .alignOvf)) ∧
  (∀ a b : Word, b ≠ 0#32 → (2 ^ 32 ≤ a.toNat + b.toNat - 1 ↔ 0xFFFFFFFF#32 - (b - 1#32) < a)) ∧
  (∀ b : Word, b ≠ 0#32 → alignUp 0#32 b = 0#32) ∧
  (∀ a b : Word, b ≠ 0#32 → a.toNat + b.toNat - 1 < 2 ^ 32 → b.toNat ∣ a.toNat → alignUp a b = a) ∧
  (∀ a : Word, alignUp a 1#32 = a ∧ alignUpSum a 1#32 < 2 ^ 32) ∧
  (∀ (a : Word) (k : Nat), k < 32 → a.toNat + 2 ^ k - 1 < 2 ^ 32 →
    alignUp a (1#32 <<< k) = (a + (1#32 <<< k) - 1#32) &&& ~~~((1#32 <<< k) - 1#32)) ∧
  alignUp 0xFFFFFFFF#32 2#32 = 0#32 ∧ alignUp 0xFFFFF000#32 0x1000#32 = 0xFFFFF000#32 ∧
  alignUp 0xFFFFF001#32 0x1000#32 = 0#32 ∧ alignUp 0xFFFFFFFE#32 3#32 = 0#32 ∧
  alignUp 0x12345678#32 0x00001000#32 = 0x12346000#32 ∧ alignUp 100#32 7#32 = 105#32

/-- Rule R58: without a fault R is the smallest multiple not below A, and less than one alignment above it. -/
def Obligations.AlignuResultIsTheSmallestMultipleAbove : Prop :=
  ∀ a b : Word, b ≠ 0#32 → a.toNat + b.toNat - 1 < 2 ^ 32 →
    a.toNat ≤ (alignUp a b).toNat ∧ (alignUp a b).toNat % b.toNat = 0 ∧
    (∀ m : Nat, b.toNat ∣ m → a.toNat ≤ m → (alignUp a b).toNat ≤ m) ∧
    (a ≠ 0#32 → (alignUp a b).toNat - b.toNat < a.toNat ∧ alignUp a b - b < a)

/-- Rule R59. -/
def Obligations.Npw2IsTheNextPowerOfTwo : Prop :=
  decode 0x00000022#32 = .ok .npw2 ∧
  (∀ s : State, s.a = 0#32 ∨ 0x80000000 < s.a.toNat → exec .npw2 s =
    .next (({ s with r := Config.freeWord s.draws, draws := s.draws + 1 } : State).faulted .npw2Range)) ∧
  (∀ s : State, s.a ≠ 0#32 → s.a.toNat ≤ 0x80000000 → exec .npw2 s =
    .next { s with r := BitVec.ofNat 32 (2 ^ (32 - clz32 (s.a - 1#32))) }) ∧
  (∀ a : Word, a ≠ 0#32 → a.toNat ≤ 0x80000000 → 1 ≤ clz32 (a - 1#32) ∧ clz32 (a - 1#32) ≤ 32) ∧
  (∀ k : Nat, k < 32 → nextPow2 (BitVec.ofNat 32 (2 ^ k)) = BitVec.ofNat 32 (2 ^ k)) ∧
  (∀ k : Nat, 1 ≤ k → k ≤ 30 → nextPow2 (BitVec.ofNat 32 (2 ^ k + 1)) = BitVec.ofNat 32 (2 ^ (k + 1))) ∧
  nextPow2 3#32 = 4#32 ∧ nextPow2 0x7FFFFFFF#32 = 0x80000000#32 ∧ nextPow2 0x80000000#32 = 0x80000000#32 ∧
  nextPow2 0x000003E8#32 = 0x00000400#32

/-- Rule R60: on its whole valid range NPW2 gives a power of two, not below the operand, whose half is below it. -/
def Obligations.Npw2ResultIsThePowerItClaims : Prop :=
  ∀ a : Word, a ≠ 0#32 → a.toNat ≤ 0x80000000 →
    (∃ k < 32, (nextPow2 a).toNat = 2 ^ k) ∧ a.toNat ≤ (nextPow2 a).toNat ∧
    (1 < a.toNat → (nextPow2 a).toNat / 2 < a.toNat) ∧
    (∀ k : Nat, a.toNat ≤ 2 ^ k → (nextPow2 a).toNat ≤ 2 ^ k)

/-! ## Bit counts (42_bitcount.md) -/

/-- Rule R62: 32 at 0, otherwise 31 minus the number of the highest set bit. -/
def Obligations.ClzCountsDownToTheHighestSetBit : Prop :=
  decode 0x00000030#32 = .ok .clz ∧
  (∀ s : State, exec .clz s = .next { s with r := BitVec.ofNat 32 (clz32 s.a) }) ∧
  (∀ a : Word, clz32 a ≤ 32) ∧ clz32 0#32 = 32 ∧
  (∀ (a : Word) (k : Nat), k < 32 → a.getLsbD k = true → (∀ j, k < j → j < 32 → a.getLsbD j = false) →
    clz32 a = 31 - k) ∧
  clz32 1#32 = 31 ∧ clz32 0x80000000#32 = 0 ∧ clz32 0xFFFFFFFF#32 = 0 ∧ clz32 0x7FFFFFFF#32 = 1 ∧
  clz32 0x00F00000#32 = 8

/-- Rule R63: the number of the lowest set bit; at 0 an unspecified result and the fault CTZ_ZERO. -/
def Obligations.CtzIsTheLowestSetBit : Prop :=
  decode 0x00000031#32 = .ok .ctz ∧
  (∀ s : State, s.a = 0#32 → exec .ctz s =
    .next (({ s with r := Config.freeWord s.draws, draws := s.draws + 1 } : State).faulted .ctzZero)) ∧
  (∀ (s : State) (k : Nat), k < 32 → s.a.getLsbD k = true → (∀ j < k, s.a.getLsbD j = false) →
    exec .ctz s = .next { s with r := BitVec.ofNat 32 k }) ∧
  (∀ a : Word, a ≠ 0#32 → ∃ k < 32, a.getLsbD k = true ∧ (∀ j < k, a.getLsbD j = false) ∧ ctz32 a = k) ∧
  ctz32 0x80000000#32 = 31 ∧ ctz32 0xFFFFFFFF#32 = 0 ∧ ctz32 0x00F00000#32 = 20

/-- Rule R64: the number of bit positions 0 to 31 that are set; a value and its complement have 32 together. -/
def Obligations.PopcCountsTheSetBits : Prop :=
  decode 0x00000032#32 = .ok .popc ∧
  (∀ s : State, exec .popc s = .next { s with
    r := BitVec.ofNat 32 ((List.range 32).countP fun j => s.a.getLsbD j) }) ∧
  (∀ a : Word, popcount32 a = (List.range 32).countP fun j => a.getLsbD j) ∧
  (∀ a : Word, popcount32 a ≤ 32 ∧ popcount32 a + popcount32 (~~~a) = 32) ∧
  (∀ k : Nat, k < 32 → popcount32 (1#32 <<< k) = 1) ∧
  popcount32 0#32 = 0 ∧ popcount32 0xFFFFFFFF#32 = 32 ∧ popcount32 0xAAAAAAAA#32 = 16 ∧
  popcount32 0x55555555#32 = 16 ∧ popcount32 0x12345678#32 = 13

/-- Rule R65. -/
def Obligations.BitCountsRelateToEachOther : Prop :=
  (∀ a : Word, a ≠ 0#32 → clz32 a + ctz32 a + 1 ≤ 32 ∧
    (clz32 a + ctz32 a + 1 = 32 ↔ ∃ k < 32, a = 1#32 <<< k) ∧
    (popcount32 a = 1 ↔ ∃ k < 32, a = 1#32 <<< k) ∧ popcount32 a ≤ 32 - clz32 a - ctz32 a) ∧
  (∀ a : Word, clz32 a = 32 ↔ a = 0#32)

/-! ## Endian converter (43_endian.md) -/

/-- Rules R67 to R70: the identity for the little-endian pair, the byte swap, written as four shift and mask operations,
for the big-endian pair. -/
def Obligations.EndianCommandsCopyOrSwapBytes : Prop :=
  decode 0x00000040#32 = .ok .fromle32 ∧ decode 0x00000041#32 = .ok .tole32 ∧
  decode 0x00000042#32 = .ok .frombe32 ∧ decode 0x00000043#32 = .ok .tobe32 ∧
  (∀ s : State, exec .fromle32 s = .next { s with r := s.a } ∧ exec .tole32 s = .next { s with r := s.a } ∧
    exec .frombe32 s = .next { s with r := ((s.a &&& 0x000000FF#32) <<< 24) ||| ((s.a &&& 0x0000FF00#32) <<< 8)
      ||| ((s.a >>> 8) &&& 0x0000FF00#32) ||| ((s.a >>> 24) &&& 0x000000FF#32) } ∧
    exec .tobe32 s = .next { s with r := ((s.a &&& 0x000000FF#32) <<< 24) ||| ((s.a &&& 0x0000FF00#32) <<< 8)
      ||| ((s.a >>> 8) &&& 0x0000FF00#32) ||| ((s.a >>> 24) &&& 0x000000FF#32) }) ∧
  bswap32 0x12345678#32 = 0x78563412#32 ∧ bswap32 0x000000FF#32 = 0xFF000000#32 ∧
  bswap32 0x12343412#32 = 0x12343412#32 ∧ bswap32 0xABABABAB#32 = 0xABABABAB#32 ∧ bswap32 0#32 = 0#32 ∧
  bswap32 0xFFFFFFFF#32 = 0xFFFFFFFF#32

/-- Rule R66: each command is dec of enc between the native order, which is little, and the wire order it names. -/
def Obligations.EndianCommandsMeetTheirContract : Prop :=
  Config.nativeOrder = .little ∧
  (∀ (o : ByteOrder) (v : Word), decBytes o (encBytes o v) = v) ∧
  (∀ s : State,
    exec .fromle32 s = .next { s with r := decBytes .little (encBytes Config.nativeOrder s.a) } ∧
    exec .tole32 s = .next { s with r := decBytes Config.nativeOrder (encBytes .little s.a) } ∧
    exec .frombe32 s = .next { s with r := decBytes .big (encBytes Config.nativeOrder s.a) } ∧
    exec .tobe32 s = .next { s with r := decBytes Config.nativeOrder (encBytes .big s.a) })

/-- Rule R71: each conversion undoes its partner, a host copy of R to A between the two commands. -/
def Obligations.EndianRoundTripsGiveTheValueBack : Prop :=
  ∀ (s t u : State) (i j : Instr), (i, j) ∈ [(Instr.tobe32, Instr.tobe32), (.tole32, .fromle32), (.tobe32, .frombe32),
      (.fromle32, .tole32), (.frombe32, .tobe32), (.frombe32, .frombe32)] →
    exec i s = .next t → exec j { t with a := t.r } = .next u → u.r = s.a

/-! ## The CRC engine (44_crc32.md) -/

/-- Rule R75: crc_byte is the exclusive-or of the byte into the low 8 bits and eight shift steps with 0xEDB88320, which
is CRC_POLY with its bits reversed. -/
def Obligations.CrcByteIsEightReflectedSteps : Prop :=
  (∀ (acc : Word) (byte : Byte), crcByte acc byte =
    Nat.repeat (fun c : Word => if c.getLsbD 0 = true then (c >>> 1) ^^^ 0xEDB88320#32 else c >>> 1) 8
      (acc ^^^ byte.setWidth 32)) ∧
  rev32 0x04C11DB7#32 = 0xEDB88320#32

/-- Rule R76: crc_update is the left fold of crc_byte; the empty string leaves the accumulator. -/
def Obligations.CrcUpdateIsTheLeftFoldOfCrcByte : Prop :=
  (∀ (acc : Word) (bytes : List Byte), crcUpdate acc bytes = bytes.foldl crcByte acc) ∧
  (∀ acc : Word, crcUpdate acc [] = acc) ∧
  (∀ (acc : Word) (byte : Byte) (bytes : List Byte),
    crcUpdate acc (byte :: bytes) = crcUpdate (crcByte acc byte) bytes)

/-- Rule R77: where every address of the buffer answers, CRC32 leaves in ACC the fold from the seed of what the port
returns, raw, and changes nothing else but the record of its reads; over plain memory that nobody writes those are the
bytes M[A], M[A + 1], ...; where an address is refused ACC is unspecified and BUS_ERROR is raised; B = 0 changes nothing;
zero bytes keep a zero ACC; and the bytes "123456789" give the two values of the rule's example. -/
def Obligations.Crc32FoldsTheBufferIntoAcc : Prop :=
  decode 0x00000050#32 = .ok .crc32 ∧ Config.crcXor = 0x00000000#32 ∧
  (∀ s : State, s.spanValid → exec .crc32 s = .next { s with
    acc := crcUpdate s.acc (s.portBytes s.portReads.length (bufferAddrs s.a s.b.toNat))
    portReads := (bufferAddrs s.a s.b.toNat).reverse ++ s.portReads }) ∧
  (∀ s : State, s.spanQuiet s.a s.b.toNat → exec .crc32 s = .next { s with
    acc := crcUpdate s.acc (bufferBytes s.mem s.a s.b.toNat)
    portReads := (bufferAddrs s.a s.b.toNat).reverse ++ s.portReads }) ∧
  (∀ s : State, ¬s.spanValid → exec .crc32 s = .next (({ s with
    acc := Config.freeWord s.draws
    draws := s.draws + 1
    portReads := ((bufferAddrs s.a s.b.toNat).takeWhile s.memValid).reverse ++ s.portReads } : State).faulted
      .busError)) ∧
  (∀ s : State, s.b = 0#32 → exec .crc32 s = .next s) ∧
  (∀ s t : State, s.spanQuiet s.a s.b.toNat → s.acc = 0#32 → (∀ byte ∈ bufferBytes s.mem s.a s.b.toNat, byte = 0#8) →
    exec .crc32 s = .next t → t.acc = 0#32) ∧
  (∀ s t : State, s.spanQuiet s.a s.b.toNat → bufferBytes s.mem s.a s.b.toNat =
      [0x31#8, 0x32#8, 0x33#8, 0x34#8, 0x35#8, 0x36#8, 0x37#8, 0x38#8, 0x39#8] → exec .crc32 s = .next t →
    (s.acc = 0x00000000#32 → t.acc = 0x2DFD2D88#32) ∧ (s.acc = 0xFFFFFFFF#32 → t.acc = 0x340BC6D9#32))

/-- Rule R33: every read of plain memory returns memory's byte or that of a write in flight to the same address, either one,
and ACC ends as the fold of whatever the port returned, one byte a read. -/
def Obligations.Crc32FoldsWhateverBytesThePortReturned : Prop :=
  (∀ (s : State) (n : Nat) (x : Addr), s.plain x = true →
    s.portByte n x = s.mem.read x.toNat ∨ ∃ w ∈ s.posted, w.1 = x ∧ s.portByte n x = w.2) ∧
  (∀ (s : State) (n : Nat) (x : Addr), s.plain x = true → (∀ w ∈ s.posted, w.1 ≠ x) →
    s.portByte n x = s.mem.read x.toNat) ∧
  (∀ s : State, s.spanValid → ∃ bytes : List Byte, bytes.length = s.b.toNat ∧
    (∀ i (h : i < bytes.length), bytes[i] = s.portByte (s.portReads.length + i) (BitVec.ofNat 32 (s.a.toNat + i))) ∧
    exec .crc32 s = .next { s with
      acc := crcUpdate s.acc bytes
      portReads := (bufferAddrs s.a s.b.toNat).reverse ++ s.portReads })

/-- Rule R26: CRC32 reads the addresses of its buffer in ascending order modulo 2^32, each once, up to the first refused
one, and none when the length is 0. -/
def Obligations.Crc32ReadsItsBufferOnceInOrder : Prop :=
  (∀ s t : State, exec .crc32 s = .next t →
    t.portReads = ((bufferAddrs s.a s.b.toNat).takeWhile s.memValid).reverse ++ s.portReads) ∧
  (∀ (x : Addr) (n : Nat), n < 2 ^ 32 → (bufferAddrs x n).Nodup ∧ (bufferAddrs x n).length = n ∧
    ∀ i (h : i < (bufferAddrs x n).length), ((bufferAddrs x n)[i]).toNat = (x.toNat + i) % 2 ^ 32)

/-- Rule R79: at the first refused read, the i-th, the reads before it have been made and no other, ACC is unspecified,
BUS_ERROR is raised, and A, B and R stay. -/
def Obligations.RefusedReadEndsCrc32WithBusError : Prop :=
  ∀ (s : State) (i : Nat), i < s.b.toNat →
    (∀ j < i, s.memValid (BitVec.ofNat 32 (s.a.toNat + j)) = true) →
    s.memValid (BitVec.ofNat 32 (s.a.toNat + i)) = false →
    exec .crc32 s = .next (({ s with
      acc := Config.freeWord s.draws
      draws := s.draws + 1
      portReads := (bufferAddrs s.a i).reverse ++ s.portReads } : State).faulted .busError)

/-- Rule R84: the length alone decides. CRC32 leaves the whole state as it is exactly when B = 0, whatever A holds: with a
length it makes a read or is refused one, which the model's records of reads and draws show (entries 2 and 7). A = 0 with
a length B and a span that answers reads B bytes from address 0 on. -/
def Obligations.ZeroLengthIsTheOnlyNoOp : Prop :=
  (∀ s : State, exec .crc32 s = .next s ↔ s.b = 0#32) ∧
  (∀ s : State, s.a = 0#32 → s.b ≠ 0#32 → s.spanValid → ∃ t, exec .crc32 s = .next t ∧
    t.portReads = (bufferAddrs 0#32 s.b.toNat).reverse ++ s.portReads ∧ 0#32 ∈ bufferAddrs 0#32 s.b.toNat)

/-- Rule R78: folding a string in two parts is folding it whole, for every value of CRC_XOR; and on the unit, CRC32 over
two fragments with ACC left alone between them is the fold of the two put together. -/
def Obligations.CrcComposesOverFragments : Prop :=
  (∀ (x seed : Word) (buf : List Byte) (k : Nat),
    crcUpdate ((crcUpdate (seed ^^^ x) (buf.take k) ^^^ x) ^^^ x) (buf.drop k) ^^^ x =
      crcUpdate (seed ^^^ x) buf ^^^ x) ∧
  (∀ (s t u : State) (a b : Word), s.spanQuiet s.a s.b.toNat → exec .crc32 s = .next t → t.spanQuiet a b.toNat →
    exec .crc32 { t with a := a, b := b } = .next u →
    u.acc = crcUpdate s.acc (bufferBytes s.mem s.a s.b.toNat ++ bufferBytes s.mem a b.toNat))

/-- Rule R80: the 256-entry and the 16-entry table forms compute crc_byte; the sixteen entries of T4 are those listed,
and T4[j] = T8[16 * j]. -/
def Obligations.TableFormsComputeCrcByte : Prop :=
  let t8 := fun j : Word => crcShifts 8 j
  let t4 := fun j : Word => crcShifts 4 j
  (∀ (acc : Word) (byte : Byte),
    crcByte acc byte = (acc >>> 8) ^^^ t8 ((acc ^^^ byte.setWidth 32) &&& 0xFF#32)) ∧
  (∀ (acc : Word) (byte : Byte),
    let c1 := (acc >>> 4) ^^^ t4 ((acc ^^^ byte.setWidth 32) &&& 0xF#32)
    crcByte acc byte = (c1 >>> 4) ^^^ t4 ((c1 ^^^ (byte.setWidth 32 >>> 4)) &&& 0xF#32)) ∧
  ((List.range 16).map (fun j => t4 (BitVec.ofNat 32 j)) =
    [0x00000000#32, 0x1DB71064#32, 0x3B6E20C8#32, 0x26D930AC#32, 0x76DC4190#32, 0x6B6B51F4#32, 0x4DB26158#32,
     0x5005713C#32, 0xEDB88320#32, 0xF00F9344#32, 0xD6D6A3E8#32, 0xCB61B38C#32, 0x9B64C2B0#32, 0x86D3D2D4#32,
     0xA00AE278#32, 0xBDBDF21C#32]) ∧
  (∀ j : Nat, j < 16 → t4 (BitVec.ofNat 32 j) = t8 (BitVec.ofNat 32 (16 * j))) ∧
  t8 0#32 = 0x00000000#32 ∧ t8 1#32 = 0x77073096#32 ∧ t8 2#32 = 0xEE0E612C#32 ∧ t8 128#32 = 0xEDB88320#32 ∧
  t8 255#32 = 0x2D02EF8D#32

/-- Rule R81: crc_byte is linear over exclusive-or, a bijection in the accumulator, and so is a whole update; a run of
zero bytes keeps a zero accumulator. -/
def Obligations.CrcIsLinearAndLosesNoSeed : Prop :=
  (∀ x y : Word, crcByte (x ^^^ y) 0#8 = crcByte x 0#8 ^^^ crcByte y 0#8) ∧
  (∀ (acc : Word) (byte : Byte), crcByte acc byte = crcByte (acc ^^^ byte.setWidth 32) 0#8) ∧
  (∀ (s t : Word) (u v : List Byte), u.length = v.length →
    crcUpdate (s ^^^ t) (List.zipWith (· ^^^ ·) u v) = crcUpdate s u ^^^ crcUpdate t v) ∧
  (∀ n : Nat, crcUpdate 0#32 (List.replicate n 0#8) = 0#32) ∧
  (∀ (byte : Byte) (y : Word), ∃ x : Word, crcByte x byte = y ∧ ∀ z : Word, crcByte z byte = y → z = x) ∧
  (∀ (s t : Word) (u : List Byte), crcUpdate s u = crcUpdate t u → s = t)

/-- Rules R82 and R83: the ASCII bytes "123456789" from the seeds 0 and 0xFFFFFFFF, and the complement of the latter. -/
def Obligations.CrcOfTheKnownMessage : Prop :=
  crcUpdate 0x00000000#32 [0x31#8, 0x32#8, 0x33#8, 0x34#8, 0x35#8, 0x36#8, 0x37#8, 0x38#8, 0x39#8] = 0x2DFD2D88#32 ∧
  crcUpdate 0xFFFFFFFF#32 [0x31#8, 0x32#8, 0x33#8, 0x34#8, 0x35#8, 0x36#8, 0x37#8, 0x38#8, 0x39#8] = 0x340BC6D9#32 ∧
  ~~~(0x340BC6D9#32) = 0xCBF43926#32

/-! ## Memory events (20_memory.md) -/

/-- Rule R37: a byte written and made visible before a command is the byte the port sees, where no other write to it is
in flight, and no other byte changes. A byte posted joins the writes in flight and changes nothing else (entry 8; rules R33
and R105): memory keeps the old byte, and each read of plain memory at its address returns the posted byte or what it would
have returned, freely, while reads elsewhere are as before. Publishing the writes in flight leaves none, and each byte is then that of the
newest write to it. -/
def Obligations.VisibleWritesAreSeenByThePort : Prop :=
  (∀ (s : State) (x : Addr) (byte : Byte) (rest : List Event), s.pending = .memWrite x byte :: rest →
    ∃ t, step s = .next t ∧ (∀ y : Addr, t.mem.read y.toNat = if y = x then byte else s.mem.read y.toNat) ∧
      ((∀ w ∈ s.posted, w.1 ≠ x) → t.plain x = true → ∀ n, t.portByte n x = byte) ∧
      t.posted = s.posted ∧ t.a = s.a ∧ t.b = s.b ∧ t.r = s.r ∧ t.acc = s.acc ∧ t.err = s.err ∧ t.cause = s.cause) ∧
  (∀ (s : State) (x : Addr) (byte : Byte) (rest : List Event), s.pending = .memPost x byte :: rest →
    ∃ t, step s = .next t ∧ t = { s with pending := rest, posted := s.posted ++ [(x, byte)] } ∧
      (∀ n, t.plain x = true →
        t.portByte n x = if Config.seesPosted n s.posted.length then byte else s.portByte n x) ∧
      (∀ n (y : Addr), y ≠ x → t.portByte n y = s.portByte n y)) ∧
  (∀ (s : State) (rest : List Event), s.pending = .memPublish :: rest →
    ∃ t, step s = .next t ∧ t.posted = [] ∧
      (∀ y : Addr, (∀ w ∈ s.posted, w.1 ≠ y) → t.mem.read y.toNat = s.mem.read y.toNat) ∧
      (∀ (before after : List (Addr × Byte)) (y : Addr) (byte : Byte), s.posted = before ++ (y, byte) :: after →
        (∀ w ∈ after, w.1 ≠ y) → t.mem.read y.toNat = byte) ∧
      (∀ (n : Nat) (y : Addr), t.plain y = true → t.portByte n y = t.mem.read y.toNat))
end

