-- ==== Sys2Proof/Laws/BitCount.lean ====
section
/-! SUPPORT. What the counting recursions of BitCount.lean compute (42_bitcount.md). -/

namespace Sys2Proof.Machine

theorem leadingZeros_le (v : Word) (n : Nat) : leadingZeros v n ≤ n := by
  induction n with
  | zero => exact Nat.le_refl 0
  | succ n ih => unfold leadingZeros; split <;> omega

/-- With no set bit among the low n the count is n. -/
theorem leadingZeros_none (v : Word) (n : Nat) (h : ∀ j < n, v.getLsbD j = false) : leadingZeros v n = n := by
  induction n with
  | zero => rfl
  | succ n ih => simp [leadingZeros, h n (by omega), ih fun j hj => h j (by omega)]

/-- With k the highest set bit among the low n the count is n - 1 - k. -/
theorem leadingZeros_top (v : Word) (n k : Nat) (hk : k < n) (hb : v.getLsbD k = true)
    (h : ∀ j, k < j → j < n → v.getLsbD j = false) : leadingZeros v n = n - 1 - k := by
  induction n with
  | zero => omega
  | succ n ih =>
    unfold leadingZeros
    by_cases hkn : k = n
    · subst hkn; simp [hb]
    · simp [h n (by omega) (by omega), ih (by omega) fun j h₁ h₂ => h j h₁ (by omega)]
      omega

theorem trailingZeros_le (v : Word) (k n : Nat) : trailingZeros v k n ≤ n := by
  induction n generalizing k with
  | zero => exact Nat.le_refl 0
  | succ n ih => have := ih (k + 1); unfold trailingZeros; split <;> omega

/-- With bit k + m the first set one from bit k upward the count is m. -/
theorem trailingZeros_low (v : Word) (k m n : Nat) (hm : m < n) (hb : v.getLsbD (k + m) = true)
    (h : ∀ j < m, v.getLsbD (k + j) = false) : trailingZeros v k n = m := by
  induction n generalizing k m with
  | zero => omega
  | succ n ih =>
    unfold trailingZeros
    cases m with
    | zero => simp_all
    | succ m =>
      have h0 : v.getLsbD k = false := h 0 (by omega)
      simp only [h0, Bool.false_eq_true, if_false, Nat.add_right_cancel_iff]
      exact ih (k + 1) m (by omega) (by rw [Nat.add_right_comm]; exact hb)
        fun j hj => by rw [Nat.add_right_comm]; exact h (j + 1) (by omega)

theorem onesBelow_le (v : Word) (n : Nat) : onesBelow v n ≤ n := by
  induction n with
  | zero => exact Nat.le_refl 0
  | succ n ih => unfold onesBelow; split <;> omega

/-- A value other than 0 has a highest and a lowest set bit. -/
theorem exists_bit_of_ne_zero (v : Word) (h : v ≠ 0#32) : ∃ k < 32, v.getLsbD k = true := by
  refine Classical.byContradiction fun hn => h (BitVec.eq_of_getLsbD_eq fun i hi => ?_)
  have : ¬v.getLsbD i = true := fun hb => hn ⟨i, hi, hb⟩
  simpa using this

end Sys2Proof.Machine
end

