-- ==== Sys2Proof/Laws/Crc.lean ====
section
/-! SUPPORT. The CRC engine: the span of a buffer, the fold over a byte string, and everything the loop of rule R77 can
do. -/

namespace Sys2Proof.Machine

/-! ## The span (20_memory.md rule R26) -/

@[simp] theorem span_length (x : Addr) (n : Nat) : (span x n).length = n := by
  induction n generalizing x with
  | zero => rfl
  | succ n ih => simp [span, ih]

/-- The i-th address of a buffer is (A + i) mod 2^32. -/
theorem span_eq_map (x : Addr) (n : Nat) : span x n = (List.range n).map fun i => x + BitVec.ofNat 32 i := by
  induction n generalizing x with
  | zero => rfl
  | succ n ih =>
    rw [span, ih, List.range_succ_eq_map, List.map_cons, List.map_map]
    congr 1
    · simp
    · apply List.map_congr_left
      intro i _
      simp only [Function.comp, Nat.succ_eq_add_one]
      rw [BitVec.add_assoc, Nat.add_comm i 1, BitVec.ofNat_add]

theorem span_take (x : Addr) (n k : Nat) : (span x n).take k = span x (min k n) := by
  induction n generalizing x k with
  | zero => simp [span]
  | succ n ih =>
    cases k with
    | zero => simp [span]
    | succ k => rw [span, List.take_succ_cons, ih, Nat.succ_min_succ]; rfl

/-! ## The fold (44_crc32.md rule R76) -/

@[simp] theorem crcUpdate_nil (acc : Word) : crcUpdate acc [] = acc := rfl

@[simp] theorem crcUpdate_cons (acc : Word) (byte : Byte) (bytes : List Byte) :
    crcUpdate acc (byte :: bytes) = crcUpdate (crcByte acc byte) bytes := rfl

theorem crcUpdate_append (acc : Word) (u v : List Byte) :
    crcUpdate acc (u ++ v) = crcUpdate (crcUpdate acc u) v := by
  induction u generalizing acc with
  | nil => rfl
  | cons b u ih => exact ih _

theorem crcShifts_add (m n : Nat) (c : Word) : crcShifts (m + n) c = crcShifts n (crcShifts m c) := by
  induction m generalizing c with
  | zero => simp [crcShifts]
  | succ m ih => rw [Nat.succ_add]; exact ih _

/-- The entry and exit exclusive-or is with 0 (rule R4). -/
@[simp] theorem xor_crcXor (c : Word) : c ^^^ Config.crcXor = c := by simp [Config.crcXor]

/-! ## The loop (44_crc32.md rules R77, R79) -/

/-- With every address of the buffer answering, the loop folds what the port returns and reads the whole span. -/
theorem crcLoop_valid (s : State) (n : Nat) (x : Addr) (c : Word) (reads : List Addr)
    (h : ∀ y ∈ span x n, s.memValid y = true) :
    crcLoop s n x c reads =
      ⟨some (crcUpdate c (s.portBytes reads.length (span x n))), (span x n).reverse ++ reads⟩ := by
  induction n generalizing x c reads with
  | zero => rfl
  | succ n ih =>
    have hx : s.memValid x = true := h x (by simp [span])
    rw [crcLoop, if_pos hx, ih _ _ _ fun y hy => h y (by simp [span, hy])]
    simp [span, State.portBytes]

/-- The port's reads: the addresses before the first refused one, in order. -/
theorem crcLoop_reads (s : State) (n : Nat) (x : Addr) (c : Word) (reads : List Addr) :
    (crcLoop s n x c reads).reads = ((span x n).takeWhile s.memValid).reverse ++ reads := by
  induction n generalizing x c reads with
  | zero => rfl
  | succ n ih =>
    rw [crcLoop, span]
    by_cases hx : s.memValid x = true
    · rw [if_pos hx, ih, List.takeWhile_cons_of_pos hx]; simp
    · rw [if_neg hx, List.takeWhile_cons_of_neg hx]; rfl

/-- With an address of the buffer refused, the loop ends without an accumulator. -/
theorem crcLoop_refused (s : State) (n : Nat) (x : Addr) (c : Word) (reads : List Addr)
    (h : ∃ y ∈ span x n, s.memValid y = false) : (crcLoop s n x c reads).acc = none := by
  induction n generalizing x c reads with
  | zero => simp [span] at h
  | succ n ih =>
    rw [crcLoop]
    by_cases hx : s.memValid x = true
    · rw [if_pos hx]
      obtain ⟨y, hy, hv⟩ := h
      rcases List.mem_cons.mp hy with rfl | hy
      · simp [hx] at hv
      · exact ih _ _ _ ⟨y, hy, hv⟩
    · rw [if_neg hx]

/-- CRC32 over a span that answers everywhere. -/
theorem execCrc32_valid (s : State) (h : s.spanValid) :
    execCrc32 s = .next { s with
      acc := crcUpdate s.acc (s.portBytes s.portReads.length (span s.a s.byteCount))
      portReads := (span s.a s.byteCount).reverse ++ s.portReads } := by
  unfold execCrc32 crcRun
  rw [State.operandA, State.operandAcc, xor_crcXor, crcLoop_valid s _ _ _ _ h]
  simp

/-- CRC32 over a span with a refused address. -/
theorem execCrc32_refused (s : State) (h : ¬s.spanValid) :
    execCrc32 s = .next (({ s with portReads :=
      ((span s.a s.byteCount).takeWhile s.memValid).reverse ++ s.portReads } : State).drawAcc.raise .busError) := by
  have h' : ∃ y ∈ span s.a s.byteCount, s.memValid y = false := by
    simpa [State.spanValid] using h
  have hn := crcLoop_refused s s.byteCount s.a (s.acc ^^^ Config.crcXor) s.portReads h'
  unfold execCrc32 crcRun
  simp only [State.operandA, State.operandAcc, hn, crcLoop_reads]

/-! ## The port (20_memory.md rule R33) -/

/-- Without a write in flight to its address a read sees the byte there. -/
theorem seenByte_none (n : Nat) (x : Addr) (j : Nat) (ws : List (Addr × Byte)) (cur : Byte)
    (h : ∀ w ∈ ws, w.1 ≠ x) : seenByte n x j ws cur = cur := by
  induction ws generalizing j cur with
  | nil => rfl
  | cons w ws ih =>
    have hw : w.1 ≠ x := h w (by simp)
    simpa [seenByte, hw] using ih (j + 1) cur fun v hv => h v (by simp [hv])

/-- One more write in flight, the newest: a read sees it or sees what it would have seen. -/
theorem seenByte_append (n : Nat) (x : Addr) (j : Nat) (ws : List (Addr × Byte)) (w : Addr × Byte) (cur : Byte) :
    seenByte n x j (ws ++ [w]) cur =
      if w.1 = x && Config.seesPosted n (j + ws.length) then w.2 else seenByte n x j ws cur := by
  induction ws generalizing j cur with
  | nil => rfl
  | cons v ws ih =>
    rw [List.cons_append, seenByte, ih, seenByte, List.length_cons, Nat.add_right_comm, Nat.add_assoc]

theorem State.portByte_plain (s : State) (n : Nat) (x : Addr) (hp : s.plain x = true)
    (hw : ∀ w ∈ s.posted, w.1 ≠ x) : s.portByte n x = s.mem.read x.toNat := by
  simp [State.portByte, hp, seenByte_none n x 0 s.posted _ hw]

/-- Plain memory answers. -/
theorem State.memValid_of_plain (s : State) (x : Addr) (h : s.plain x = true) : s.memValid x = true := by
  unfold State.plain at h
  unfold State.memValid
  rw [Option.isNone_iff_eq_none.mp h]

end Sys2Proof.Machine
end

