-- ==== Sys2Proof/Laws/Decode.lean ====
section
/-! SUPPORT. The command decoder and the register numbers. -/

namespace Sys2Proof

/-- A word is its three fields side by side (30_encoding.md rule R40). -/
theorem fields_append (w : Word) : (fieldZero w ++ fieldFam w) ++ fieldFn w = w := by
  unfold fieldZero fieldFam fieldFn
  apply BitVec.eq_of_getLsbD_eq
  intro i hi
  simp only [BitVec.getLsbD_append, BitVec.getLsbD_extractLsb']
  by_cases h4 : i < 4
  · simp [h4]
  · by_cases h8 : i - 4 < 4
    · have : 4 + (i - 4) = i := by omega
      simp [h4, h8, this]
    · have : 8 + (i - 4 - 4) = i := by omega
      have h24 : i - 4 - 4 < 24 := by omega
      simp [h4, h8, h24, this]

/-- A word whose upper field is not zero is no command (rules R41, R44). -/
theorem decode_upper (w : Word) (h : fieldZero w ≠ 0#24) : decode w = .error .upperNotZero := by
  simp [decode, h]

namespace Machine

/-- The register's number names the register. -/
theorem decodeReg_encodeReg (q : Reg) : decodeReg (encodeReg q) = q := by cases q <;> rfl

end Machine

end Sys2Proof
end

