-- ==== Sys2Proof/Laws/State.lean ====
section
/-! SUPPORT. What each update of the state does to each field: one lemma per field per update, so that no later proof
unfolds a record update. -/

namespace Sys2Proof.Machine

variable (s : State)

/-! ## setR -/

@[simp] theorem State.setR_a (v : Word) : (s.setR v).a = s.a := rfl
@[simp] theorem State.setR_b (v : Word) : (s.setR v).b = s.b := rfl
@[simp] theorem State.setR_r (v : Word) : (s.setR v).r = v := rfl
@[simp] theorem State.setR_acc (v : Word) : (s.setR v).acc = s.acc := rfl
@[simp] theorem State.setR_err (v : Word) : (s.setR v).err = s.err := rfl
@[simp] theorem State.setR_cause (v : Word) : (s.setR v).cause = s.cause := rfl
@[simp] theorem State.setR_mem (v : Word) : (s.setR v).mem = s.mem := rfl
@[simp] theorem State.setR_map (v : Word) : (s.setR v).map = s.map := rfl
@[simp] theorem State.setR_posted (v : Word) : (s.setR v).posted = s.posted := rfl
@[simp] theorem State.setR_pending (v : Word) : (s.setR v).pending = s.pending := rfl
@[simp] theorem State.setR_returned (v : Word) : (s.setR v).returned = s.returned := rfl
@[simp] theorem State.setR_portReads (v : Word) : (s.setR v).portReads = s.portReads := rfl
@[simp] theorem State.setR_draws (v : Word) : (s.setR v).draws = s.draws := rfl

/-! ## drawR -/

@[simp] theorem State.drawR_a : (s.drawR).a = s.a := rfl
@[simp] theorem State.drawR_b : (s.drawR).b = s.b := rfl
@[simp] theorem State.drawR_r : (s.drawR).r = Config.freeWord s.draws := rfl
@[simp] theorem State.drawR_acc : (s.drawR).acc = s.acc := rfl
@[simp] theorem State.drawR_err : (s.drawR).err = s.err := rfl
@[simp] theorem State.drawR_cause : (s.drawR).cause = s.cause := rfl
@[simp] theorem State.drawR_mem : (s.drawR).mem = s.mem := rfl
@[simp] theorem State.drawR_map : (s.drawR).map = s.map := rfl
@[simp] theorem State.drawR_posted : (s.drawR).posted = s.posted := rfl
@[simp] theorem State.drawR_pending : (s.drawR).pending = s.pending := rfl
@[simp] theorem State.drawR_returned : (s.drawR).returned = s.returned := rfl
@[simp] theorem State.drawR_portReads : (s.drawR).portReads = s.portReads := rfl
@[simp] theorem State.drawR_draws : (s.drawR).draws = s.draws + 1 := rfl

/-! ## drawAcc -/

@[simp] theorem State.drawAcc_a : (s.drawAcc).a = s.a := rfl
@[simp] theorem State.drawAcc_b : (s.drawAcc).b = s.b := rfl
@[simp] theorem State.drawAcc_r : (s.drawAcc).r = s.r := rfl
@[simp] theorem State.drawAcc_acc : (s.drawAcc).acc = Config.freeWord s.draws := rfl
@[simp] theorem State.drawAcc_err : (s.drawAcc).err = s.err := rfl
@[simp] theorem State.drawAcc_cause : (s.drawAcc).cause = s.cause := rfl
@[simp] theorem State.drawAcc_mem : (s.drawAcc).mem = s.mem := rfl
@[simp] theorem State.drawAcc_map : (s.drawAcc).map = s.map := rfl
@[simp] theorem State.drawAcc_posted : (s.drawAcc).posted = s.posted := rfl
@[simp] theorem State.drawAcc_pending : (s.drawAcc).pending = s.pending := rfl
@[simp] theorem State.drawAcc_returned : (s.drawAcc).returned = s.returned := rfl
@[simp] theorem State.drawAcc_portReads : (s.drawAcc).portReads = s.portReads := rfl
@[simp] theorem State.drawAcc_draws : (s.drawAcc).draws = s.draws + 1 := rfl

/-! ## clearStatus -/

@[simp] theorem State.clearStatus_a : (s.clearStatus).a = s.a := rfl
@[simp] theorem State.clearStatus_b : (s.clearStatus).b = s.b := rfl
@[simp] theorem State.clearStatus_r : (s.clearStatus).r = s.r := rfl
@[simp] theorem State.clearStatus_acc : (s.clearStatus).acc = s.acc := rfl
@[simp] theorem State.clearStatus_err : (s.clearStatus).err = false := rfl
@[simp] theorem State.clearStatus_cause : (s.clearStatus).cause = .none := rfl
@[simp] theorem State.clearStatus_mem : (s.clearStatus).mem = s.mem := rfl
@[simp] theorem State.clearStatus_map : (s.clearStatus).map = s.map := rfl
@[simp] theorem State.clearStatus_posted : (s.clearStatus).posted = s.posted := rfl
@[simp] theorem State.clearStatus_pending : (s.clearStatus).pending = s.pending := rfl
@[simp] theorem State.clearStatus_returned : (s.clearStatus).returned = s.returned := rfl
@[simp] theorem State.clearStatus_portReads : (s.clearStatus).portReads = s.portReads := rfl
@[simp] theorem State.clearStatus_draws : (s.clearStatus).draws = s.draws := rfl

/-! ## unitReset -/

@[simp] theorem State.unitReset_a : (s.unitReset).a = Config.freeWord s.draws := rfl
@[simp] theorem State.unitReset_b : (s.unitReset).b = Config.freeWord (s.draws + 1) := rfl
@[simp] theorem State.unitReset_r : (s.unitReset).r = Config.freeWord (s.draws + 2) := rfl
@[simp] theorem State.unitReset_acc : (s.unitReset).acc = Config.freeWord (s.draws + 3) := rfl
@[simp] theorem State.unitReset_err : (s.unitReset).err = false := rfl
@[simp] theorem State.unitReset_cause : (s.unitReset).cause = .none := rfl
@[simp] theorem State.unitReset_mem : (s.unitReset).mem = s.mem := rfl
@[simp] theorem State.unitReset_map : (s.unitReset).map = s.map := rfl
@[simp] theorem State.unitReset_posted : (s.unitReset).posted = s.posted := rfl
@[simp] theorem State.unitReset_pending : (s.unitReset).pending = s.pending := rfl
@[simp] theorem State.unitReset_returned : (s.unitReset).returned = s.returned := rfl
@[simp] theorem State.unitReset_portReads : (s.unitReset).portReads = s.portReads := rfl
@[simp] theorem State.unitReset_draws : (s.unitReset).draws = s.draws + 4 := rfl

/-! ## raise (60_exceptions.md rule R88) -/

@[simp] theorem State.raise_err (c : Cause) : (s.raise c).err = true := by
  unfold State.raise; split <;> simp_all

@[simp] theorem State.raise_cause (c : Cause) : (s.raise c).cause = if s.err then s.cause else c := by
  unfold State.raise; split <;> simp_all

@[simp] theorem State.raise_a (c : Cause) : (s.raise c).a = s.a := by unfold State.raise; split <;> rfl
@[simp] theorem State.raise_b (c : Cause) : (s.raise c).b = s.b := by unfold State.raise; split <;> rfl
@[simp] theorem State.raise_r (c : Cause) : (s.raise c).r = s.r := by unfold State.raise; split <;> rfl
@[simp] theorem State.raise_acc (c : Cause) : (s.raise c).acc = s.acc := by unfold State.raise; split <;> rfl
@[simp] theorem State.raise_mem (c : Cause) : (s.raise c).mem = s.mem := by unfold State.raise; split <;> rfl
@[simp] theorem State.raise_map (c : Cause) : (s.raise c).map = s.map := by unfold State.raise; split <;> rfl
@[simp] theorem State.raise_posted (c : Cause) : (s.raise c).posted = s.posted := by unfold State.raise; split <;> rfl
@[simp] theorem State.raise_pending (c : Cause) : (s.raise c).pending = s.pending := by unfold State.raise; split <;> rfl
@[simp] theorem State.raise_returned (c : Cause) : (s.raise c).returned = s.returned := by unfold State.raise; split <;> rfl
@[simp] theorem State.raise_portReads (c : Cause) : (s.raise c).portReads = s.portReads := by unfold State.raise; split <;> rfl
@[simp] theorem State.raise_draws (c : Cause) : (s.raise c).draws = s.draws := by unfold State.raise; split <;> rfl

/-- raise as one record update, whether or not a fault stood. -/
theorem State.raise_eq (c : Cause) :
    s.raise c = { s with err := true, cause := if s.err then s.cause else c } := by
  unfold State.raise
  split
  case isTrue h => cases s; simp_all
  case isFalse => simp_all

/-- A fault while one stands is absorbed (rule R89). -/
theorem State.raise_of_err (c : Cause) (h : s.err = true) : s.raise c = s := by simp [State.raise, h]

end Sys2Proof.Machine
end

