-- ==== Sys2Proof/Laws/Exec.lean ====
section
/-! SUPPORT. Everything a command, an event and a step can do, said once. -/

namespace Sys2Proof.Machine

/-! ## The commands that can fault, case by case (60_exceptions.md rule R86) -/

theorem execAlignd_zero (s : State) (h : s.b = 0#32) : execAlignd s = .next (s.drawR.raise .alignZero) := if_pos h

theorem execAlignd_nonzero (s : State) (h : s.b ≠ 0#32) : execAlignd s = .next (s.setR (alignDown s.a s.b)) :=
  if_neg h

theorem execAlignu_zero (s : State) (h : s.b = 0#32) : execAlignu s = .next (s.drawR.raise .alignZero) := if_pos h

theorem execAlignu_overflow (s : State) (h : s.b ≠ 0#32) (ho : 2 ^ 32 ≤ s.a.toNat + s.b.toNat - 1) :
    execAlignu s = .next ((s.setR (alignUp s.a s.b)).raise .alignOvf) := (if_neg h).trans (if_pos ho)

theorem execAlignu_fits (s : State) (h : s.b ≠ 0#32) (ho : s.a.toNat + s.b.toNat - 1 < 2 ^ 32) :
    execAlignu s = .next (s.setR (alignUp s.a s.b)) := (if_neg h).trans (if_neg (Nat.not_le.mpr ho))

/-- The range test of NPW2 over the numbers (rule R59). -/
theorem npw2_range_iff (a : Word) : (a = 0#32 ∨ 0x80000000#32 < a) ↔ (a = 0#32 ∨ 0x80000000 < a.toNat) := by
  rw [BitVec.lt_def]; rfl

theorem execNpw2_range (s : State) (h : s.a = 0#32 ∨ 0x80000000 < s.a.toNat) :
    execNpw2 s = .next (s.drawR.raise .npw2Range) := if_pos ((npw2_range_iff s.a).mpr h)

theorem execNpw2_valid (s : State) (h : ¬(s.a = 0#32 ∨ 0x80000000 < s.a.toNat)) :
    execNpw2 s = .next (s.setR (nextPow2 s.a)) := if_neg fun h' => h ((npw2_range_iff s.a).mp h')

theorem execCtz_zero (s : State) (h : s.a = 0#32) : execCtz s = .next (s.drawR.raise .ctzZero) := if_pos h

theorem execCtz_nonzero (s : State) (h : s.a ≠ 0#32) :
    execCtz s = .next (s.setR (BitVec.ofNat 32 (ctz32 s.a))) := if_neg h

/-! ## Inversion -/

/-- A command other than CRC32 writes R, with or without a fault, or draws an unspecified R and faults. -/
theorem exec_cases (i : Instr) (hi : i ≠ .crc32) (s : State) :
    (∃ v, exec i s = .next (s.setR v)) ∨ (∃ v c, c ≠ .none ∧ exec i s = .next ((s.setR v).raise c)) ∨
      (∃ c, c ≠ .none ∧ exec i s = .next (s.drawR.raise c)) := by
  cases i with
  | crc32 => exact absurd rfl hi
  | alignd =>
    simp only [exec, execAlignd]
    split
    · exact .inr (.inr ⟨_, by decide, rfl⟩)
    · exact .inl ⟨_, rfl⟩
  | alignu =>
    simp only [exec, execAlignu]
    split
    · exact .inr (.inr ⟨_, by decide, rfl⟩)
    · split
      · exact .inr (.inl ⟨_, _, by decide, rfl⟩)
      · exact .inl ⟨_, rfl⟩
  | npw2 =>
    simp only [exec, execNpw2]
    split
    · exact .inr (.inr ⟨_, by decide, rfl⟩)
    · exact .inl ⟨_, rfl⟩
  | ctz =>
    simp only [exec, execCtz]
    split
    · exact .inr (.inr ⟨_, by decide, rfl⟩)
    · exact .inl ⟨_, rfl⟩
  | max => exact .inl ⟨_, rfl⟩
  | min => exact .inl ⟨_, rfl⟩
  | scmp => exact .inl ⟨_, rfl⟩
  | clz => exact .inl ⟨_, rfl⟩
  | popc => exact .inl ⟨_, rfl⟩
  | fromle32 => exact .inl ⟨_, rfl⟩
  | tole32 => exact .inl ⟨_, rfl⟩
  | frombe32 => exact .inl ⟨_, rfl⟩
  | tobe32 => exact .inl ⟨_, rfl⟩

/-- CRC32 writes ACC, or draws an unspecified ACC and raises BUS_ERROR; its reads are recorded either way. -/
theorem exec_crc32_cases (s : State) :
    (∃ c reads, exec .crc32 s = .next { s with acc := c, portReads := reads }) ∨
      (∃ reads, exec .crc32 s = .next (({ s with portReads := reads } : State).drawAcc.raise .busError)) := by
  by_cases h : s.spanValid
  · exact .inl ⟨_, _, execCrc32_valid s h⟩
  · exact .inr ⟨_, execCrc32_refused s h⟩

/-- A word written to CMD runs a command or raises ILLEGAL_CMD. -/
theorem execWord_cases (w : Word) (s : State) :
    (∃ i, decode w = .ok i ∧ execWord w s = exec i s) ∨
      ((∃ e, decode w = .error e) ∧ execWord w s = .next (s.raise .illegalCmd)) := by
  unfold execWord
  split
  next i h => exact .inl ⟨i, h, rfl⟩
  next e h => exact .inr ⟨⟨e, h⟩, rfl⟩

/-- A register write executes a command word or stores. -/
theorem serveWrite_cases (n : RegNum) (v : Word) (s : State) :
    (decodeReg n = .cmd ∧ serveWrite n v s = execWord v s) ∨
      (decodeReg n ≠ .cmd ∧ serveWrite n v s = .next (s.writeReg (decodeReg n) v)) := by
  unfold serveWrite
  split
  next h => exact .inl ⟨h, rfl⟩
  next h => exact .inr ⟨h, rfl⟩

/-- A bus write is a register write or does not reach the unit. -/
theorem serveBusWrite_cases (x : Addr) (v : Word) (s : State) :
    (∃ n, s.busReg x = some n ∧ serveBusWrite x v s = serveWrite n v s) ∨
      (s.busReg x = none ∧ serveBusWrite x v s = .next s) := by
  unfold serveBusWrite
  split
  next n h => exact .inl ⟨n, h, rfl⟩
  next h => exact .inr ⟨h, rfl⟩

/-- Where the first region that holds it is the register block, the word at byte offset 4 * n is register n. -/
theorem State.busReg_block (s : State) (g : Region) (n : RegNum)
    (h : s.regionAt (g.base + BitVec.ofNat 32 (4 * n.toNat)) = some g) (hk : g.kind = .registers) :
    s.busReg (g.base + BitVec.ofNat 32 (4 * n.toNat)) = some n := by
  have ho : (g.base + BitVec.ofNat 32 (4 * n.toNat) - g.base).toNat = 4 * n.toNat := by
    rw [BitVec.add_comm, BitVec.add_sub_cancel]
    simp
    omega
  unfold State.busReg
  simp only [h, ho]
  rw [if_pos ⟨hk, by omega, by unfold Config.nreg; omega⟩]
  simp

/-- Where no register block stands there is no register. -/
theorem State.busReg_none (s : State) (x : Addr) (h : ∀ g, s.regionAt x = some g → g.kind ≠ .registers) :
    s.busReg x = none := by
  unfold State.busReg
  split
  next g hg => exact if_neg fun hc => h g hg hc.1
  next => rfl

/-- A bus read is a register read or does not reach the unit. -/
theorem serveBusRead_cases (x : Addr) (s : State) :
    (∃ n, s.busReg x = some n ∧ serveBusRead x s = serveRead n s) ∨
      (s.busReg x = none ∧ serveBusRead x s = s) := by
  unfold serveBusRead
  split
  next n h => exact .inl ⟨n, h, rfl⟩
  next h => exact .inr ⟨h, rfl⟩

/-- With no event the machine stays as it is. -/
theorem step_idle (s : State) (h : s.pending = []) : step s = .next s := by simp [step, h]

/-- With an event the machine serves it. -/
theorem step_serve (s : State) (e : Event) (rest : List Event) (h : s.pending = e :: rest) :
    step s = serve e { s with pending := rest } := by simp [step, h]

end Sys2Proof.Machine
end

