-- ==== Sys2Proof/Laws/Memory.lean ====
section
/-! SUPPORT. The data space: what a byte write does to every read, and that it keeps the canonical form. -/

namespace Sys2Proof.Machine

theorem Memory.erase_cons (c : Host.Cell) (m : Memory) (a : Nat) :
    Memory.erase (c :: m) a = if c.1 = a then m.erase a else c :: m.erase a := by
  unfold Memory.erase
  rw [List.filter_cons]
  by_cases h : c.1 = a <;> simp [h]

theorem Memory.read_erase (m : Memory) (a x : Nat) :
    (m.erase a).read x = if x = a then Memory.unlisted else m.read x := by
  induction m with
  | nil => simp [Memory.erase, Memory.read]
  | cons c m ih =>
    rw [Memory.erase_cons, Memory.read]
    by_cases hc : c.1 = a
    · rw [if_pos hc, ih]
      by_cases hx : x = a
      · simp [hx]
      · have : ¬c.1 = x := fun e => hx (e.symm.trans hc)
        simp [hx, this]
    · rw [if_neg hc, Memory.read, ih]
      by_cases hx : c.1 = x
      · have : ¬x = a := fun e => hc (hx.trans e)
        simp [hx, this]
      · simp [hx]

theorem Memory.read_insert (m : Memory) (a x : Nat) (byte : Byte) (hm : ∀ c ∈ m, c.1 ≠ a) :
    (Memory.insert a byte m).read x = if x = a then byte else m.read x := by
  induction m with
  | nil => simp only [Memory.insert, Memory.read]; simp [eq_comm]
  | cons c m ih =>
    have hc : c.1 ≠ a := hm c (by simp)
    have ih := ih fun d hd => hm d (by simp [hd])
    unfold Memory.insert
    split
    · by_cases hx : x = a
      · simp [Memory.read, hx]
      · simp [Memory.read, hx, Ne.symm hx]
    · by_cases hx : c.1 = x
      · simp [Memory.read, hx]; intro h; omega
      · simp [Memory.read, hx, ih]

theorem Memory.mem_erase {m : Memory} {a : Nat} {c : Host.Cell} : c ∈ m.erase a ↔ c ∈ m ∧ c.1 ≠ a := by
  simp [Memory.erase]

/-- What one byte write does to every read. -/
theorem Memory.read_write (m : Memory) (a x : Nat) (byte : Byte) :
    (m.write a byte).read x = if x = a then byte else m.read x := by
  unfold Memory.write
  split
  next h => simp [Memory.read_erase, h]
  next =>
    rw [Memory.read_insert _ _ _ _ fun c hc => (Memory.mem_erase.mp hc).2, Memory.read_erase]
    split <;> rfl

@[simp] theorem Memory.read_write_same (m : Memory) (a : Nat) (byte : Byte) : (m.write a byte).read a = byte := by
  simp [Memory.read_write]

theorem Memory.read_write_other (m : Memory) {a x : Nat} (byte : Byte) (h : x ≠ a) :
    (m.write a byte).read x = m.read x := by
  simp [Memory.read_write, h]

theorem Memory.erase_wf {m : Memory} (a : Nat) (hm : m.wf) : (m.erase a).wf :=
  ⟨hm.1.filter _, fun c hc => hm.2 c (Memory.mem_erase.mp hc).1⟩

theorem Memory.mem_insert {m : Memory} {a : Nat} {byte : Byte} {c : Host.Cell} :
    c ∈ Memory.insert a byte m ↔ c = (a, byte) ∨ c ∈ m := by
  induction m with
  | nil => simp [Memory.insert]
  | cons d m ih =>
    unfold Memory.insert
    split
    · simp
    · simp only [List.mem_cons, ih]; exact or_left_comm

theorem Memory.insert_wf {m : Memory} {a : Nat} {byte : Byte} (hm : m.wf) (ha : a < 2 ^ 32)
    (hb : byte ≠ Memory.unlisted) (hn : ∀ c ∈ m, c.1 ≠ a) : (Memory.insert a byte m).wf := by
  refine ⟨?_, fun c hc => ?_⟩
  · induction m with
    | nil => simp [Memory.insert]
    | cons d m ih =>
      obtain ⟨hd, hp⟩ := List.pairwise_cons.mp hm.1
      have hda : d.1 ≠ a := hn d (by simp)
      unfold Memory.insert
      split
      next hlt =>
        refine List.pairwise_cons.mpr ⟨fun c hc => ?_, hm.1⟩
        rcases List.mem_cons.mp hc with rfl | hc
        · exact hlt
        · exact Nat.lt_trans hlt (hd c hc)
      next hlt =>
        refine List.pairwise_cons.mpr
          ⟨fun c hc => ?_, ih ⟨hp, fun c hc => hm.2 c (by simp [hc])⟩ fun c hc => hn c (by simp [hc])⟩
        rcases Memory.mem_insert.mp hc with rfl | hc
        · show d.1 < a
          omega
        · exact hd c hc
  · rcases Memory.mem_insert.mp hc with rfl | hc
    · exact ⟨ha, hb⟩
    · exact hm.2 c hc

/-- A byte write keeps the canonical form. -/
theorem Memory.write_wf {m : Memory} (x : Addr) (byte : Byte) (hm : m.wf) : (m.write x.toNat byte).wf := by
  unfold Memory.write
  split
  · exact Memory.erase_wf _ hm
  next hb =>
    exact Memory.insert_wf (Memory.erase_wf _ hm) x.isLt hb fun c hc => (Memory.mem_erase.mp hc).2

/-- So do several. -/
theorem Memory.writeAll_wf (ws : List (Addr × Byte)) {m : Memory} (hm : m.wf) : (m.writeAll ws).wf := by
  induction ws generalizing m with
  | nil => exact hm
  | cons w ws ih => exact ih (Memory.write_wf w.1 w.2 hm)

/-- Writes to other addresses leave a byte alone. -/
theorem Memory.read_writeAll_other (ws : List (Addr × Byte)) (m : Memory) (x : Addr) (h : ∀ w ∈ ws, w.1 ≠ x) :
    (m.writeAll ws).read x.toNat = m.read x.toNat := by
  induction ws generalizing m with
  | nil => rfl
  | cons w ws ih =>
    have hw : w.1 ≠ x := h w (by simp)
    rw [Memory.writeAll, ih _ fun v hv => h v (by simp [hv]), Memory.read_write_other]
    exact fun e => hw (BitVec.eq_of_toNat_eq e.symm)

end Sys2Proof.Machine
end

