-- ==== Sys2Proof/Laws/PerInstr.lean ====
section
/-! SUPPORT. Facts about each command as syntax, one lemma per constructor. -/

namespace Sys2Proof.Laws.EncodedWord

/-- A command is well formed and its word is legal: ZERO is 0 and the word is one of the fourteen `match` values
(30_encoding.md rules R40 to R42). -/
def Statement (i : Instr) : Prop :=
  i.wellFormed = true ∧ fieldZero (encode i) = 0#24 ∧ legalWord (encode i) = true

theorem max : Statement .max := by unfold Statement; decide

theorem min : Statement .min := by unfold Statement; decide

theorem scmp : Statement .scmp := by unfold Statement; decide

theorem alignd : Statement .alignd := by unfold Statement; decide

theorem alignu : Statement .alignu := by unfold Statement; decide

theorem npw2 : Statement .npw2 := by unfold Statement; decide

theorem clz : Statement .clz := by unfold Statement; decide

theorem ctz : Statement .ctz := by unfold Statement; decide

theorem popc : Statement .popc := by unfold Statement; decide

theorem fromle32 : Statement .fromle32 := by unfold Statement; decide

theorem tole32 : Statement .tole32 := by unfold Statement; decide

theorem frombe32 : Statement .frombe32 := by unfold Statement; decide

theorem tobe32 : Statement .tobe32 := by unfold Statement; decide

theorem crc32 : Statement .crc32 := by unfold Statement; decide

end Sys2Proof.Laws.EncodedWord
end

