-- ==== Sys2Proof/Tests/Slice0.lean ====
section
/-! SUPPORT. The model's own tests. Expected results are those of spec/95_test_vectors.md and of the examples in the
rules, never the model's own answers. The witnesses at the end show, for each statement with hypotheses, a state and
operands that meet them. -/

namespace Sys2Proof.Tests

open Sys2Proof Sys2Proof.Machine

/-- The state a result carries; State.reset where it carries none. -/
def after (x : Result) : State :=
  match x with
  | .next t => t
  | .fault _ => State.reset
  | .refused _ => State.reset

/-- The machine after reset with operands in A and B. -/
def ab (a b : Word) : State := { State.reset with a := a, b := b }

/-- The machine after reset with one event to come. -/
def coming (e : Event) : State := { State.reset with pending := [e] }

/-- The bytes "1", "2", "3", "4" at 0xFFFFFFFE, 0xFFFFFFFF, 0 and 1 (spec/95_test_vectors.md, memory-side vector
"wrap"). -/
def wrapped : State :=
  { ab 0xFFFFFFFE#32 4#32 with mem := [(0, 0x33#8), (1, 0x34#8), (0xFFFFFFFE, 0x31#8), (0xFFFFFFFF, 0x32#8)] }

/-- MemValid true exactly for 0x1000 to 0x1FFF, with the bytes AA BB at 0x1FFE (the same table, "refused read"). -/
def fenced (a b acc : Word) : State :=
  { ab a b with acc := acc, mem := [(0x1FFE, 0xAA#8), (0x1FFF, 0xBB#8)],
                map := [⟨0x00002000#32, 2 ^ 32 - 0x1000, .refused⟩] }

/-! ## Well-formedness: each check refuses an ill-formed term -/

theorem test_wf_word_upper_field : legalWord 0x00000132#32 = false := by decide
theorem test_wf_word_function : legalWord 0x00000013#32 = false := by decide
theorem test_wf_word_family : legalWord 0x00000051#32 = false := by decide
theorem test_wf_word_ok : legalWord 0x00000050#32 = true := by decide
theorem test_wf_region_size : (Region.mk 0#32 (2 ^ 32 + 1) .refused).wellFormed = false := by decide
theorem test_wf_region_block_size : (Region.mk 0#32 24 .registers).wellFormed = false := by decide
theorem test_wf_region_block_base : (Region.mk 2#32 32 .registers).wellFormed = false := by decide
theorem test_wf_region_ok : (Region.mk 0xFFFFFFF0#32 32 .registers).wellFormed = true := by decide
theorem test_wf_memory_order : ¬Memory.wf [(2, 1#8), (1, 1#8)] := by decide
theorem test_wf_memory_unlisted : ¬Memory.wf [(2, 0#8)] := by decide
theorem test_wf_memory_range : ¬Memory.wf [(2 ^ 32, 1#8)] := by decide
theorem test_wf_status : ¬({ State.reset with err := true } : State).statusLegal := by decide

/-! ## Decoding: the words of 30_encoding.md rule R42 written out bit by bit, ZERO, FAM and FN apart -/

theorem test_decode_max :
    (decode (((0b000000000000000000000000#24 ++ 0b0001#4) ++ 0b0000#4))).toOption = some .max := by decide
theorem test_decode_min :
    (decode (((0b000000000000000000000000#24 ++ 0b0001#4) ++ 0b0001#4))).toOption = some .min := by decide
theorem test_decode_scmp :
    (decode (((0b000000000000000000000000#24 ++ 0b0001#4) ++ 0b0010#4))).toOption = some .scmp := by decide
theorem test_decode_alignd :
    (decode (((0b000000000000000000000000#24 ++ 0b0010#4) ++ 0b0000#4))).toOption = some .alignd := by decide
theorem test_decode_alignu :
    (decode (((0b000000000000000000000000#24 ++ 0b0010#4) ++ 0b0001#4))).toOption = some .alignu := by decide
theorem test_decode_npw2 :
    (decode (((0b000000000000000000000000#24 ++ 0b0010#4) ++ 0b0010#4))).toOption = some .npw2 := by decide
theorem test_decode_clz :
    (decode (((0b000000000000000000000000#24 ++ 0b0011#4) ++ 0b0000#4))).toOption = some .clz := by decide
theorem test_decode_ctz :
    (decode (((0b000000000000000000000000#24 ++ 0b0011#4) ++ 0b0001#4))).toOption = some .ctz := by decide
theorem test_decode_popc :
    (decode (((0b000000000000000000000000#24 ++ 0b0011#4) ++ 0b0010#4))).toOption = some .popc := by decide
theorem test_decode_fromle32 :
    (decode (((0b000000000000000000000000#24 ++ 0b0100#4) ++ 0b0000#4))).toOption = some .fromle32 := by decide
theorem test_decode_tole32 :
    (decode (((0b000000000000000000000000#24 ++ 0b0100#4) ++ 0b0001#4))).toOption = some .tole32 := by decide
theorem test_decode_frombe32 :
    (decode (((0b000000000000000000000000#24 ++ 0b0100#4) ++ 0b0010#4))).toOption = some .frombe32 := by decide
theorem test_decode_tobe32 :
    (decode (((0b000000000000000000000000#24 ++ 0b0100#4) ++ 0b0011#4))).toOption = some .tobe32 := by decide
theorem test_decode_crc32 :
    (decode (((0b000000000000000000000000#24 ++ 0b0101#4) ++ 0b0000#4))).toOption = some .crc32 := by decide

theorem test_decode_table_word : decodeTableWord 32 0x31 = some .ctz := by decide
theorem test_decode_table_word_short : decodeTableWord 8 0x50 = some .crc32 := by decide
theorem test_decode_zero : (decode 0x00000000#32).toOption = none := by decide
theorem test_decode_ones : (decode 0xFFFFFFFF#32).toOption = none := by decide
theorem test_decode_high_bit : (decode 0x80000010#32).toOption = none := by decide

/-! ## Commands (spec/95_test_vectors.md 2.1 to 2.5) -/

theorem test_max_unsigned : (after (exec .max (ab 0x7FFFFFFF#32 0x80000000#32))).r = 0x80000000#32 := by decide
theorem test_min_unsigned : (after (exec .min (ab 0x7FFFFFFF#32 0x80000000#32))).r = 0x7FFFFFFF#32 := by decide
theorem test_scmp_wraps : (after (exec .scmp (ab 0x00000002#32 0xFFFFFFFF#32))).r = 0x00000003#32 := by decide
theorem test_scmp_sign : toS32 (after (exec .scmp (ab 0x00000003#32 0x0000000A#32))).r = -7 := by decide
theorem test_alignd_not_power : (after (exec .alignd (ab 100#32 7#32))).r = 98#32 := by decide
theorem test_alignd_zero :
    (after (exec .alignd (ab 0x12345678#32 0#32))).statusWord = 0x00000021#32 := by decide
theorem test_alignu_not_power : (after (exec .alignu (ab 100#32 7#32))).r = 105#32 := by decide
theorem test_alignu_overflow :
    (after (exec .alignu (ab 0xFFFFFFFF#32 0xFFFFFFFF#32))).r = 0#32 ∧
      (after (exec .alignu (ab 0xFFFFFFFF#32 0xFFFFFFFF#32))).statusWord = 0x00000031#32 := by decide
theorem test_npw2 : (after (exec .npw2 (ab 1000#32 0#32))).r = 0x00000400#32 := by decide
theorem test_npw2_above_range :
    (after (exec .npw2 (ab 0x80000001#32 0#32))).statusWord = 0x00000041#32 := by decide
theorem test_clz : (after (exec .clz (ab 0x00F00000#32 0#32))).r = 8#32 := by decide
theorem test_clz_zero : (after (exec .clz (ab 0#32 0#32))).r = 32#32 := by decide
theorem test_ctz : (after (exec .ctz (ab 0x00F00000#32 0#32))).r = 20#32 := by decide
theorem test_ctz_zero : (after (exec .ctz (ab 0#32 0#32))).statusWord = 0x00000051#32 := by decide
theorem test_popc : (after (exec .popc (ab 0x12345678#32 0#32))).r = 13#32 := by decide
theorem test_fromle32 : (after (exec .fromle32 (ab 0x12345678#32 0#32))).r = 0x12345678#32 := by decide
theorem test_tole32 : (after (exec .tole32 (ab 0xDEADBEEF#32 0#32))).r = 0xDEADBEEF#32 := by decide
theorem test_frombe32 : (after (exec .frombe32 (ab 0x12345678#32 0#32))).r = 0x78563412#32 := by decide
theorem test_tobe32 : (after (exec .tobe32 (ab 0xCBF43926#32 0#32))).r = 0x2639F4CB#32 := by decide
theorem test_crc32_wraps :
    (after (exec .crc32 wrapped)).acc = 0xBAA73FBF#32 ∧
      (after (exec .crc32 wrapped)).portReads = [1#32, 0#32, 0xFFFFFFFF#32, 0xFFFFFFFE#32] := by
  decide +kernel
theorem test_crc32_refused_read :
    (after (exec .crc32 (fenced 0x00001FFE#32 4#32 0#32))).statusWord = 0x00000061#32 ∧
      (after (exec .crc32 (fenced 0x00001FFE#32 4#32 0#32))).portReads = [0x1FFF#32, 0x1FFE#32] := by
  decide +kernel
theorem test_crc_byte : crcByte 0xFFFFFFFF#32 0x61#8 = 0x174841BC#32 := by decide

/-! ## Register accesses and events (spec/95_test_vectors.md 2.6) -/

theorem test_first_cause_kept :
    (after (exec .alignd { ab 5#32 0#32 with err := true, cause := .ctzZero })).statusWord = 0x00000051#32 := by decide
theorem test_status_clear :
    (after (step { coming (.regWrite 5#3 0xFFFFFFFF#32) with err := true, cause := .ctzZero })).statusWord = 0#32 := by
  decide
theorem test_status_clear_needs_bit_zero :
    (after (step { coming (.regWrite 5#3 0xFFFFFFFE#32) with err := true, cause := .ctzZero })).statusWord =
      0x00000051#32 := by decide
theorem test_illegal_word : (after (step (coming (.regWrite 4#3 0x00000132#32)))).statusWord = 0x00000011#32 := by decide
theorem test_write_to_r_ignored :
    (after (step { coming (.regWrite 2#3 0x55555555#32) with r := 13#32 })).r = 13#32 := by decide
theorem test_read_status_returns :
    (after (step { coming (.regRead 5#3) with err := true, cause := .ctzZero })).returned = [0x00000051#32] := by decide
theorem test_placed_command_runs :
    (after (step (({ State.reset with a := 0x12345678#32 } : State).withFetchWord 32 0x32))).r = 13#32 := by decide
theorem test_first_command_after_reset : (after (Sys2Proof.core.step (State.reset.withFetchWord 32 0x30))).r = 32#32 := by
  decide
theorem test_memory_write_removes_zero : Memory.write [(3, 7#8)] 3 0#8 = [] := by decide
theorem test_memory_write_in_order : Memory.write [(3, 7#8)] 1 9#8 = [(1, 9#8), (3, 7#8)] := by decide

/-! ## Witnesses: what meets the hypotheses of the statements -/

theorem wrapped_valid : wrapped.spanValid := fun _ _ => rfl

theorem wrapped_quiet : wrapped.spanQuiet wrapped.a wrapped.b.toNat := fun _ _ => ⟨rfl, fun _ h => nomatch h⟩

/-- The bytes "123456789" at 0x1000 and the seed 0xFFFFFFFF (44_crc32.md rule R77, the example). -/
def digits : State :=
  { ab 0x1000#32 9#32 with
    acc := 0xFFFFFFFF#32
    mem := [(0x1000, 0x31#8), (0x1001, 0x32#8), (0x1002, 0x33#8), (0x1003, 0x34#8), (0x1004, 0x35#8), (0x1005, 0x36#8),
      (0x1006, 0x37#8), (0x1007, 0x38#8), (0x1008, 0x39#8)] }

theorem crc32_completes (s : State) (h : s.spanValid) : ∃ t, exec .crc32 s = .next t := ⟨_, execCrc32_valid s h⟩

theorem fenced_refused : ¬(fenced 0x1FFE#32 4#32 0#32).spanValid :=
  fun h => absurd (h 0x2000#32 (by simp [span, fenced, ab, State.byteCount])) (by decide)

theorem witness_DecoderAcceptsExactlyTheFourteenWords :
    (0x00000132#32 : Word).extractLsb' 8 24 ≠ 0#24 ∧ legalWord 0x00000013#32 = false ∧ legalWord 0x00000010#32 = true := by
  decide

theorem witness_IllegalWordRaisesIllegalCmdAndNothingElse :
    (coming (.regWrite 4#3 0x00000000#32)).pending = [.regWrite 4#3 0x00000000#32] ∧ legalWord 0x00000000#32 = false ∧
      legalWord 0x000000FF#32 = false ∧ (0x00000100#32 : Word).extractLsb' 8 24 ≠ 0#24 := by decide

theorem witness_AssemblerLineIsOneRegisterAccess :
    (coming (Line.command .crc32).event).pending = [(Line.command .crc32).event] := rfl

theorem witness_StepRunsTheWordWrittenToCmd :
    ((coming (.regWrite 4#3 0x00000050#32)).pending = [.regWrite 4#3 0x00000050#32] ∧ decode 0x00000050#32 = .ok .crc32) ∧
      ((coming (.regWrite 4#3 0x00000053#32)).pending = [.regWrite 4#3 0x00000053#32] ∧
        decode 0x00000053#32 = .error .unassigned) ∧
      (coming (.regRead 4#3)).pending = [.regRead 4#3] := ⟨⟨rfl, rfl⟩, ⟨rfl, rfl⟩, rfl⟩

theorem witness_PlacedWordRunsAtTheNextStep : decodeTableWord 32 0x43 = some .tobe32 := by decide

theorem witness_StepKeepsMemoryFormAndLegalStatus :
    (coming (.memWrite 7#32 9#8)).Inv ∧ ∃ t, step (coming (.memWrite 7#32 9#8)) = .next t := ⟨by decide, _, rfl⟩

theorem witness_IdleUnitKeepsItsState : State.reset.pending = [] := rfl

theorem witness_OnlyTheseEventsChangeEachRegister :
    (after (step (coming (.regWrite 0#3 5#32)))).a ≠ State.reset.a ∧
      (after (step (coming (.regWrite 1#3 5#32)))).b ≠ State.reset.b ∧
      (after (step { coming (.regWrite 4#3 0x10#32) with a := 5#32 })).r ≠ State.reset.r ∧
      (after (step (coming (.regWrite 3#3 5#32)))).acc ≠ State.reset.acc ∧
      (after (step (coming (.regWrite 4#3 0#32)))).err ≠ State.reset.err ∧
      (after (step { coming (.regWrite 4#3 0x50#32) with b := 1#32 })).portReads ≠ State.reset.portReads ∧
      (∃ t, step (coming (.regWrite 0#3 5#32)) = .next t) := by
  refine ⟨by decide, by decide, by decide, by decide, by decide, by decide, _, rfl⟩

theorem witness_UnitNeverWritesMemory :
    (∃ t, exec .crc32 wrapped = .next t) ∧ (∃ t, step (coming (.regWrite 4#3 0x50#32)) = .next t) ∧
      (∀ x byte, Event.regWrite 4#3 0x50#32 ≠ .memWrite x byte) ∧ Event.regWrite 4#3 0x50#32 ≠ .memPublish :=
  ⟨⟨_, execCrc32_valid wrapped wrapped_valid⟩, ⟨_, rfl⟩, (by intro x byte h; cases h), by decide⟩

theorem witness_NoStepChangesThePlatformMap : ∃ t, step (coming .memPublish) = .next t := ⟨_, rfl⟩

theorem witness_ResetEventDrawsFourFreeRegisters : (coming .reset).pending = [.reset] := rfl

theorem witness_ResetDuringCommandAbandonsIt :
    ((coming (.resetDuring 0x50#32 1)).pending = [.resetDuring 0x50#32 1] ∧ decode 0x50#32 = .ok .crc32) ∧
      ((coming (.resetDuring 0x10#32 0)).pending = [.resetDuring 0x10#32 0] ∧ (decode 0x10#32).toOption ≠ some .crc32) :=
  ⟨⟨rfl, rfl⟩, rfl, by decide⟩

theorem witness_HostWritesAndReadsOperandRegisters :
    (coming (.regWrite 0#3 1#32)).pending = [.regWrite 0#3 1#32] ∧
      (coming (.regWrite 1#3 1#32)).pending = [.regWrite 1#3 1#32] ∧
      (coming (.regWrite 3#3 1#32)).pending = [.regWrite 3#3 1#32] ∧
      (coming (.regRead 0#3)).pending = [.regRead 0#3] ∧ (coming (.regRead 1#3)).pending = [.regRead 1#3] ∧
      (coming (.regRead 2#3)).pending = [.regRead 2#3] ∧ (coming (.regRead 3#3)).pending = [.regRead 3#3] := by decide

theorem witness_StrayAccessesChangeNothing :
    (coming (.regRead 6#3)).pending = [.regRead 6#3] ∧ (coming (.regRead 7#3)).pending = [.regRead 7#3] ∧
      (coming (.regWrite 2#3 1#32)).pending = [.regWrite 2#3 1#32] ∧
      (coming (.regWrite 6#3 1#32)).pending = [.regWrite 6#3 1#32] ∧
      (coming (.regWrite 7#3 1#32)).pending = [.regWrite 7#3 1#32] := by decide

theorem witness_StatusReadsAndClearsAsItsFieldsSay :
    (coming (.regRead 5#3)).pending = [.regRead 5#3] ∧
      ((coming (.regWrite 5#3 1#32)).pending = [.regWrite 5#3 1#32] ∧ (1#32 : Word).getLsbD 0 = true) ∧
      ((coming (.regWrite 5#3 0xFFFFFFFE#32)).pending = [.regWrite 5#3 0xFFFFFFFE#32] ∧
        (0xFFFFFFFE#32 : Word).getLsbD 0 = false) ∧
      ({ State.reset with err := true, cause := .busError } : State).statusLegal ∧
      (∃ t, exec .clz { State.reset with err := true, cause := .busError } = .next t) ∧
      (State.reset.statusLegal ∧ State.reset.err = false ∧ ∃ t, exec .ctz State.reset = .next t) ∧
      ∀ c : Cause, c ≠ .none → ({ State.reset with err := true, cause := c } : State).statusLegal := by
  refine ⟨by decide, by decide, by decide, by decide, ⟨_, rfl⟩, ⟨by decide, rfl, _, execCtz_zero _ rfl⟩, ?_⟩
  intro c hc
  exact ⟨(fun h => nomatch h), fun h => absurd h hc⟩

/-- The register block at 0xFFFFFFF0, passing the top of the space, first in the map and over a refused region. -/
def mapped (e : Event) : State :=
  { coming e with map := [⟨0xFFFFFFF0#32, 32, .registers⟩, ⟨0#32, 2 ^ 32, .refused⟩] }

theorem test_bus_write_across_the_top :
    (after (step { mapped (.busWrite 4#32 1#32) with err := true, cause := .ctzZero })).statusWord = 0#32 := by decide

theorem witness_BusAccessReachesRegisterAtFourTimesItsNumber :
    ((mapped (.busWrite 0xC#32 5#32)).regionAt (0xFFFFFFF0#32 + BitVec.ofNat 32 (4 * (7#3 : RegNum).toNat)) =
        some ⟨0xFFFFFFF0#32, 32, .registers⟩ ∧
      (mapped (.busWrite 0xC#32 5#32)).pending =
        [.busWrite (0xFFFFFFF0#32 + BitVec.ofNat 32 (4 * (7#3 : RegNum).toNat)) 5#32] ∧
      (mapped (.busRead 0xC#32)).pending = [.busRead (0xFFFFFFF0#32 + BitVec.ofNat 32 (4 * (7#3 : RegNum).toNat))]) ∧
      (mapped (.busWrite 0x10#32 5#32)).regionAt 0x10#32 = some ⟨0#32, 2 ^ 32, .refused⟩ ∧
      (mapped (.busWrite 0x10#32 5#32)).pending = [.busWrite 0x10#32 5#32] :=
  ⟨⟨rfl, rfl, rfl⟩, rfl, rfl⟩

theorem witness_EachCommandRaisesItsOwnCause :
    faultOf .alignu (ab 1#32 0xFFFFFFFF#32) = .none ∧ faultOf .alignu (ab 2#32 0xFFFFFFFF#32) ≠ .none ∧
      faultOf .npw2 (ab 0x80000000#32 0#32) = .none ∧ faultOf .npw2 (ab 0x80000001#32 0#32) ≠ .none := by decide

theorem witness_RaiseRecordsTheFirstCause :
    State.reset.err = false ∧ ({ State.reset with err := true, cause := .ctzZero } : State).err = true := ⟨rfl, rfl⟩

theorem witness_FaultStaysUntilClearedOrReset :
    ({ coming (.regRead 0#3) with err := true, cause := .ctzZero } : State).err = true ∧
      (∃ t, step { coming (.regRead 0#3) with err := true, cause := .ctzZero } = .next t) ∧
      ∃ t, exec .alignd (ab 1#32 0#32) = .next t := ⟨rfl, ⟨_, rfl⟩, _, execAlignd_zero _ rfl⟩

theorem witness_HostAcknowledgesAFault :
    ({ coming (.regWrite 5#3 1#32) with err := true, cause := .ctzZero } : State).pending = [.regWrite 5#3 1#32] ∧
      (1#32 : Word).getLsbD 0 = true ∧
      ({ coming (.regWrite 5#3 1#32) with err := true, cause := .ctzZero } : State).err = true := by decide

theorem witness_UnspecifiedResultLeavesErrSet : ∃ t, exec .ctz (ab 0#32 0#32) = .next t :=
  ⟨_, execCtz_zero _ rfl⟩

theorem witness_FrameOfTheResultCommands :
    Instr.popc ≠ .crc32 ∧ (∃ t, exec .popc (ab 1#32 0#32) = .next t) ∧
      Instr.popc ∈ [Instr.max, .min, .scmp, .clz, .popc, .fromle32, .tole32, .frombe32, .tobe32] ∧
      faultOf .alignu (ab 1#32 0xFFFFFFFF#32) = .none ∧ ∃ t, exec .alignu (ab 1#32 0xFFFFFFFF#32) = .next t :=
  ⟨by decide, ⟨_, rfl⟩, by decide, by decide, _, execAlignu_fits _ (by decide) (by decide)⟩

theorem witness_FrameOfCrc32 : (∃ t, exec .crc32 wrapped = .next t) ∧ faultOf .crc32 wrapped = .none :=
  ⟨⟨_, execCrc32_valid wrapped wrapped_valid⟩, by simp only [faultOf, if_pos wrapped_valid]⟩

theorem witness_ResultDependsOnTheReadColumnOnly :
    Instr.popc ≠ .crc32 ∧ (ab 3#32 1#32).a = (ab 3#32 2#32).a ∧ (ab 3#32 1#32).draws = (ab 3#32 2#32).draws ∧
      (Instr.popc ∈ [Instr.max, .min, .scmp, .alignd, .alignu] → (ab 3#32 1#32).b = (ab 3#32 2#32).b) ∧
      (∃ t, exec .popc (ab 3#32 1#32) = .next t) ∧ ∃ t, exec .popc (ab 3#32 2#32) = .next t :=
  ⟨by decide, rfl, rfl, by decide, ⟨_, rfl⟩, _, rfl⟩

theorem witness_RepeatedCommandChangesNothingMore :
    Instr.max ≠ .crc32 ∧ ∃ t, exec .max (ab 3#32 10#32) = .next t ∧ t.draws = (ab 3#32 10#32).draws :=
  ⟨by decide, _, rfl, rfl⟩

theorem witness_ScmpIsTheWrappedDifference :
    (0x40000000#32 : Word) - 0xC0000000#32 = 0x80000000#32 ∧ seqCompare 0x7FFFFFFF#32 0#32 ≠ 0#32 ∧
      (seqCompare 0x7FFFFFFF#32 0#32).getLsbD 31 = false := by decide

theorem witness_ScmpAgreesWithTheTrueDistanceInRange :
    (-(2 : Int) ^ 31 ≤ 0 - 2 ^ 31 ∧ (0 : Int) - 2 ^ 31 ≤ 2 ^ 31 - 1) ∧
      (-(2 : Int) ^ 31 ≤ 2 ^ 32 - (2 ^ 31 + 1) ∧ (2 : Int) ^ 32 - (2 ^ 31 + 1) ≤ 2 ^ 31 - 1) := by decide

theorem witness_AligndRoundsDownToAMultiple :
    (ab 5#32 0#32).b = 0#32 ∧ (ab 5#32 10#32).b ≠ 0#32 ∧ (5#32 : Word).toNat < (10#32 : Word).toNat ∧
      (5#32 : Word).toNat ∣ (10#32 : Word).toNat ∧ 31 < 32 := by decide

theorem witness_AligndResultBracketsItsOperand : (2#32 : Word) ≠ 0#32 := by decide

theorem witness_AlignuRoundsUpOrReportsOverflow :
    (ab 0#32 0#32).b = 0#32 ∧
      ((ab 0xFFFFFFFE#32 2#32).b ≠ 0#32 ∧ (ab 0xFFFFFFFE#32 2#32).a.toNat + (ab 0xFFFFFFFE#32 2#32).b.toNat - 1 < 2 ^ 32) ∧
      ((ab 0xFFFFFFFF#32 2#32).b ≠ 0#32 ∧
        2 ^ 32 ≤ (ab 0xFFFFFFFF#32 2#32).a.toNat + (ab 0xFFFFFFFF#32 2#32).b.toNat - 1) ∧
      (2#32 : Word).toNat ∣ (0xFFFFFFFE#32 : Word).toNat ∧ 31 < 32 ∧ (0x80000000#32 : Word).toNat + 2 ^ 31 - 1 < 2 ^ 32 := by
  decide

theorem witness_AlignuResultIsTheSmallestMultipleAbove :
    (3#32 : Word) ≠ 0#32 ∧ (0xFFFFFFFD#32 : Word).toNat + (3#32 : Word).toNat - 1 < 2 ^ 32 ∧
      (0xFFFFFFFD#32 : Word) ≠ 0#32 := by decide

theorem witness_Npw2IsTheNextPowerOfTwo :
    (ab 0#32 0#32).a = 0#32 ∧ 0x80000000 < (ab 0x80000001#32 0#32).a.toNat ∧
      ((ab 0x80000000#32 0#32).a ≠ 0#32 ∧ (ab 0x80000000#32 0#32).a.toNat ≤ 0x80000000) ∧ 1 ≤ 30 ∧ 30 ≤ 30 := by decide

theorem witness_Npw2ResultIsThePowerItClaims :
    (0x80000000#32 : Word) ≠ 0#32 ∧ (0x80000000#32 : Word).toNat ≤ 0x80000000 ∧ 1 < (0x80000000#32 : Word).toNat := by
  decide

theorem witness_ClzCountsDownToTheHighestSetBit :
    0 < 32 ∧ (1#32 : Word).getLsbD 0 = true ∧ ∀ j, 0 < j → j < 32 → (1#32 : Word).getLsbD j = false :=
  ⟨by decide, by decide, by intro j h _; rw [BitVec.getLsbD_one]; simp; omega⟩

theorem witness_CtzIsTheLowestSetBit :
    (ab 0#32 0#32).a = 0#32 ∧ 31 < 32 ∧ (ab 0x80000000#32 0#32).a.getLsbD 31 = true ∧
      (∀ j < 31, (ab 0x80000000#32 0#32).a.getLsbD j = false) ∧ (0x80000000#32 : Word) ≠ 0#32 := by decide

theorem witness_PopcCountsTheSetBits : 31 < 32 := by decide

theorem witness_BitCountsRelateToEachOther : (0x80000000#32 : Word) ≠ 0#32 := by decide

theorem witness_EndianRoundTripsGiveTheValueBack :
    (Instr.tobe32, Instr.frombe32) ∈ [(Instr.tobe32, Instr.tobe32), (.tole32, .fromle32), (.tobe32, .frombe32),
        (.fromle32, .tole32), (.frombe32, .tobe32), (.frombe32, .frombe32)] ∧
      ∃ t, exec .tobe32 (ab 0x12345678#32 0#32) = .next t ∧ ∃ u, exec .frombe32 { t with a := t.r } = .next u :=
  ⟨by decide, _, rfl, _, rfl⟩

theorem witness_Crc32FoldsTheBufferIntoAcc :
    wrapped.spanValid ∧ wrapped.spanQuiet wrapped.a wrapped.b.toNat ∧ ¬(fenced 0x1FFE#32 4#32 0#32).spanValid ∧
      (ab 7#32 0#32).b = 0#32 ∧
      ((ab 7#32 3#32).spanQuiet 7#32 (3#32 : Word).toNat ∧ (ab 7#32 3#32).acc = 0#32 ∧
        (∀ byte ∈ bufferBytes [] 7#32 3, byte = 0#8) ∧ ∃ t, exec .crc32 (ab 7#32 3#32) = .next t) ∧
      (digits.spanQuiet digits.a digits.b.toNat ∧ bufferBytes digits.mem digits.a digits.b.toNat =
        [0x31#8, 0x32#8, 0x33#8, 0x34#8, 0x35#8, 0x36#8, 0x37#8, 0x38#8, 0x39#8] ∧ digits.acc = 0xFFFFFFFF#32 ∧
        ∃ t, exec .crc32 digits = .next t) :=
  ⟨wrapped_valid, wrapped_quiet, fenced_refused, rfl,
    ⟨(fun _ _ => ⟨rfl, fun _ h => nomatch h⟩), rfl, by decide, crc32_completes _ (fun _ _ => rfl)⟩,
    (fun _ _ => ⟨rfl, fun _ h => nomatch h⟩), by decide, rfl, crc32_completes _ (fun _ _ => rfl)⟩

theorem witness_Crc32FoldsWhateverBytesThePortReturned :
    wrapped.plain 0xFFFFFFFF#32 = true ∧ (∀ w ∈ wrapped.posted, w.1 ≠ 0xFFFFFFFF#32) ∧ wrapped.spanValid :=
  ⟨rfl, (fun _ h => nomatch h), wrapped_valid⟩

theorem witness_Crc32ReadsItsBufferOnceInOrder :
    (∃ t, exec .crc32 (fenced 0x1FFE#32 4#32 0#32) = .next t) ∧ 2 ^ 32 - 1 < 2 ^ 32 ∧
      1 < (bufferAddrs 0xFFFFFFFF#32 2).length :=
  ⟨⟨_, execCrc32_refused _ fenced_refused⟩, by decide, by decide⟩

theorem witness_RefusedReadEndsCrc32WithBusError :
    2 < (fenced 0x1FFE#32 4#32 0#32).b.toNat ∧
      (∀ j < 2, (fenced 0x1FFE#32 4#32 0#32).memValid
        (BitVec.ofNat 32 ((fenced 0x1FFE#32 4#32 0#32).a.toNat + j)) = true) ∧
      (fenced 0x1FFE#32 4#32 0#32).memValid (BitVec.ofNat 32 ((fenced 0x1FFE#32 4#32 0#32).a.toNat + 2)) = false := by
  decide

theorem witness_ZeroLengthIsTheOnlyNoOp :
    (ab 0x9000#32 0#32).b = 0#32 ∧ (fenced 0x9000#32 1#32 0#32).b ≠ 0#32 ∧ (ab 0#32 1#32).a = 0#32 ∧ (ab 0#32 1#32).b ≠ 0#32 ∧
      (ab 0#32 1#32).spanValid := ⟨rfl, by decide, rfl, by decide, fun _ _ => rfl⟩

theorem witness_CrcComposesOverFragments :
    wrapped.spanQuiet wrapped.a wrapped.b.toNat ∧ ∃ t, exec .crc32 wrapped = .next t ∧
      t.spanQuiet 0#32 (2#32 : Word).toNat ∧ ∃ u, exec .crc32 { t with a := 0#32, b := 2#32 } = .next u :=
  ⟨wrapped_quiet, _, execCrc32_valid wrapped wrapped_valid, (fun _ _ => ⟨rfl, fun _ h => nomatch h⟩),
    crc32_completes _ (fun _ _ => rfl)⟩

theorem witness_TableFormsComputeCrcByte : 15 < 16 := by decide

theorem witness_CrcIsLinearAndLosesNoSeed :
    [1#8, 2#8].length = [3#8, 4#8].length ∧ crcByte 0#32 0x31#8 = 0x51DE003A#32 ∧
      crcUpdate 5#32 [1#8] = crcUpdate 5#32 [1#8] := ⟨rfl, by decide, rfl⟩

theorem witness_VisibleWritesAreSeenByThePort :
    (coming (.memWrite 7#32 9#8)).pending = [.memWrite 7#32 9#8] ∧
      (∀ w ∈ (coming (.memWrite 7#32 9#8)).posted, w.1 ≠ 7#32) ∧ (coming (.memWrite 7#32 9#8)).plain 7#32 = true ∧
      ((coming (.memPost 7#32 9#8)).pending = [.memPost 7#32 9#8] ∧ (coming (.memPost 7#32 9#8)).plain 7#32 = true ∧
        (8#32 : Addr) ≠ 7#32) ∧
      ({ coming .memPublish with posted := [(7#32, 9#8)] } : State).pending = [.memPublish] ∧
      ({ coming .memPublish with posted := [(7#32, 9#8)] } : State).posted = [] ++ (7#32, 9#8) :: [] :=
  ⟨rfl, (fun _ h => nomatch h), rfl, ⟨rfl, rfl, by decide⟩, rfl, rfl⟩

end Sys2Proof.Tests
end

section
/-! The statements of the family 00_scope.md: the platform's map, unspecified results, and the frames of the commands.
Each is read off the inversion lemmas of Laws/Exec.lean and the field lemmas of Laws/State.lean. -/

namespace Sys2Proof.Machine

/-! ## Commands whose precondition holds (60_exceptions.md rule R90) -/

/-- A command other than CRC32 whose precondition holds writes R and nothing else. -/
theorem exec_eq_setR_of_faultOf_none (i : Instr) (hi : i ≠ .crc32) (s : State) (hf : faultOf i s = .none) :
    ∃ v, exec i s = .next (s.setR v) := by
  cases i with
  | crc32 => exact absurd rfl hi
  | alignd =>
    have hb : s.b ≠ 0#32 := fun h => by simp [faultOf, h] at hf
    exact ⟨_, execAlignd_nonzero s hb⟩
  | alignu =>
    have hb : s.b ≠ 0#32 := fun h => by simp [faultOf, h] at hf
    have ho : s.a.toNat + s.b.toNat - 1 < 2 ^ 32 := by simpa [faultOf, hb] using hf
    exact ⟨_, execAlignu_fits s hb ho⟩
  | npw2 =>
    have hr : ¬(s.a = 0#32 ∨ 0x80000000 < s.a.toNat) := by simpa [faultOf] using hf
    exact ⟨_, execNpw2_valid s hr⟩
  | ctz =>
    have ha : s.a ≠ 0#32 := fun h => by simp [faultOf, h] at hf
    exact ⟨_, execCtz_nonzero s ha⟩
  | max | min | scmp | clz | popc | fromle32 | tole32 | frombe32 | tobe32 => exact ⟨_, rfl⟩

/-- The nine total commands have no precondition (rule R86). -/
theorem faultOf_total {i : Instr} (s : State)
    (hi : i ∈ [Instr.max, .min, .scmp, .clz, .popc, .fromle32, .tole32, .frombe32, .tobe32]) :
    faultOf i s = .none := by
  cases i with
  | alignd | alignu | npw2 | ctz | crc32 => simp at hi
  | max | min | scmp | clz | popc | fromle32 | tole32 | frombe32 | tobe32 => rfl

/-- CRC32 raises no fault exactly where every address of its buffer answers (rule R107). -/
theorem faultOf_crc32_eq_none_iff (s : State) : faultOf .crc32 s = .none ↔ s.spanValid := by
  by_cases h : s.spanValid
  · exact iff_of_true (if_pos h) h
  · have hbus : faultOf .crc32 s = .busError := if_neg h
    exact iff_of_false (by simp [hbus]) h

/-- A command whose precondition holds leaves STATUS and the count of draws. -/
theorem exec_status_draws_of_faultOf_none {i : Instr} {s t : State} (ht : exec i s = .next t)
    (hf : faultOf i s = .none) : t.err = s.err ∧ t.cause = s.cause ∧ t.draws = s.draws := by
  by_cases hi : i = .crc32
  · subst hi
    cases (execCrc32_valid s ((faultOf_crc32_eq_none_iff s).mp hf)).symm.trans ht
    exact ⟨rfl, rfl, rfl⟩
  · obtain ⟨v, h⟩ := exec_eq_setR_of_faultOf_none i hi s hf
    cases h.symm.trans ht
    exact ⟨rfl, rfl, rfl⟩

/-! ## What commands leave alone (rule R42) -/

/-- No command changes A, B, memory, the map, the writes in flight, the coming events or the values returned. -/
theorem exec_frame {i : Instr} {s t : State} (ht : exec i s = .next t) :
    t.a = s.a ∧ t.b = s.b ∧ t.mem = s.mem ∧ t.map = s.map ∧ t.posted = s.posted ∧ t.pending = s.pending ∧
      t.returned = s.returned := by
  by_cases hi : i = .crc32
  · subst hi
    obtain ⟨c, reads, h⟩ | ⟨reads, h⟩ := exec_crc32_cases s <;> cases h.symm.trans ht <;> simp
  · obtain ⟨v, h⟩ | ⟨v, c, -, h⟩ | ⟨c, -, h⟩ := exec_cases i hi s <;> cases h.symm.trans ht <;> simp

/-- Only CRC32 changes ACC or reads through the port. -/
theorem exec_acc_portReads {i : Instr} (hi : i ≠ .crc32) {s t : State} (ht : exec i s = .next t) :
    t.acc = s.acc ∧ t.portReads = s.portReads := by
  obtain ⟨v, h⟩ | ⟨v, c, -, h⟩ | ⟨c, -, h⟩ := exec_cases i hi s <;> cases h.symm.trans ht <;> simp

/-- CRC32 leaves R. -/
theorem exec_crc32_r {s t : State} (ht : exec .crc32 s = .next t) : t.r = s.r := by
  obtain ⟨c, reads, h⟩ | ⟨reads, h⟩ := exec_crc32_cases s <;> cases h.symm.trans ht <;> simp

/-! ## The platform's map through a command, an event and a step (entry 4) -/

/-- No command changes the map. -/
theorem exec_map {i : Instr} {s t : State} (ht : exec i s = .next t) : t.map = s.map := by
  obtain ⟨-, -, -, hmap, -⟩ := exec_frame ht
  exact hmap

/-- No word written to CMD changes the map. -/
theorem execWord_map {w : Word} {s t : State} (ht : execWord w s = .next t) : t.map = s.map := by
  obtain ⟨i, -, h⟩ | ⟨-, h⟩ := execWord_cases w s
  · exact exec_map (h.symm.trans ht)
  · cases h.symm.trans ht
    exact s.raise_map _

/-- No register's store changes the map. -/
@[simp] theorem State.writeReg_map (q : Reg) (v : Word) (s : State) : (s.writeReg q v).map = s.map := by
  cases q with
  | status => simp only [writeReg, writeStatus]; split <;> rfl
  | a | b | r | acc | cmd | reserved6 | reserved7 => rfl

/-- No register write changes the map. -/
theorem serveWrite_map {n : RegNum} {v : Word} {s t : State} (ht : serveWrite n v s = .next t) : t.map = s.map := by
  obtain ⟨-, h⟩ | ⟨-, h⟩ := serveWrite_cases n v s
  · exact execWord_map (h.symm.trans ht)
  · cases h.symm.trans ht
    exact s.writeReg_map _ v

/-- No bus read changes the map. -/
@[simp] theorem serveBusRead_map (x : Addr) (s : State) : (serveBusRead x s).map = s.map := by
  obtain ⟨n, -, h⟩ | ⟨-, h⟩ := serveBusRead_cases x s <;> rw [h]
  rfl

/-- No event changes the map. -/
theorem serve_map {e : Event} {s t : State} (ht : serve e s = .next t) : t.map = s.map := by
  cases e with
  | regWrite n v => exact serveWrite_map ht
  | busWrite x v =>
    obtain ⟨n, -, h⟩ | ⟨-, h⟩ := serveBusWrite_cases x v s
    · exact serveWrite_map (h.symm.trans ht)
    · cases h.symm.trans ht
      rfl
  | busRead x => cases ht; exact serveBusRead_map x s
  | regRead | memWrite | memPost | memPublish | reset | resetDuring => cases ht; rfl

/-- Settles O13: the step serves one event, and no event changes the map. -/
theorem noStepChangesThePlatformMap : Obligations.NoStepChangesThePlatformMap := by
  intro s t ht
  cases hp : s.pending with
  | nil => cases (step_idle s hp).symm.trans ht; rfl
  | cons e rest => exact serve_map (s := { s with pending := rest }) ((step_serve s e rest hp).symm.trans ht)

/-! ## Unspecified results (00_scope.md rule R7) -/

/-- Settles O25: only the drawing outcomes of a command advance the count, and each of them raises a fault. -/
theorem unspecifiedResultLeavesErrSet : Obligations.UnspecifiedResultLeavesErrSet := by
  intro i s t ht
  by_cases hi : i = .crc32
  · subst hi
    obtain ⟨c, reads, h⟩ | ⟨reads, h⟩ := exec_crc32_cases s <;> cases h.symm.trans ht
    · exact .inl rfl
    · exact .inr (by simp)
  · obtain ⟨v, h⟩ | ⟨v, c, -, h⟩ | ⟨c, -, h⟩ := exec_cases i hi s <;> cases h.symm.trans ht
    · exact .inl rfl
    · exact .inl (by simp)
    · exact .inr (by simp)

/-! ## The frames of the commands (30_encoding.md rule R42, 44_crc32.md rule R77) -/

/-- Settles O26: the frame all commands share, with ACC and the port's reads; and STATUS and the draws without a fault,
which the nine total commands never call for. -/
theorem frameOfTheResultCommands : Obligations.FrameOfTheResultCommands := by
  intro i s t hi ht
  obtain ⟨ha, hb, hmem, hmap, hposted, hpending, hreturned⟩ := exec_frame ht
  obtain ⟨hacc, hreads⟩ := exec_acc_portReads hi ht
  exact ⟨ha, hb, hacc, hmap, hposted, hpending, hreturned, hreads, fun _ => by rw [hmem],
    fun htotal => exec_status_draws_of_faultOf_none ht (faultOf_total s htotal),
    exec_status_draws_of_faultOf_none ht⟩

/-- Settles O27: the frame all commands share, with R; and STATUS and the draws where every address answers. -/
theorem frameOfCrc32 : Obligations.FrameOfCrc32 := by
  intro s t ht
  obtain ⟨ha, hb, hmem, hmap, hposted, hpending, hreturned⟩ := exec_frame ht
  exact ⟨ha, hb, exec_crc32_r ht, hmap, hposted, hpending, hreturned, fun _ => by rw [hmem],
    exec_status_draws_of_faultOf_none ht⟩

end Sys2Proof.Machine
end

section
/-! The statements of the family 10_state.md: register accesses, STATUS, the register block on the bus, what each event
can change, and the invariant of every step. The tier 3 statements rest on one inversion of the served event,
`EventEffect`. -/

namespace Sys2Proof.Machine

/-! ## What a command does to STATUS (60_exceptions.md rules R86 to R90) -/

/-- A command whose precondition fails is the raise of its own cause, STATUS untouched before that. -/
theorem exec_eq_raise_faultOf {i : Instr} {s : State} (hf : faultOf i s ≠ .none) :
    ∃ u : State, u.err = s.err ∧ u.cause = s.cause ∧ exec i s = .next (u.raise (faultOf i s)) := by
  cases i with
  | max | min | scmp | clz | popc | fromle32 | tole32 | frombe32 | tobe32 => exact absurd rfl hf
  | alignd =>
    by_cases hb : s.b = 0#32
    · exact ⟨s.drawR, rfl, rfl, by simp [exec, execAlignd_zero s hb, faultOf, hb]⟩
    · exact absurd (if_neg hb) hf
  | alignu =>
    by_cases hb : s.b = 0#32
    · exact ⟨s.drawR, rfl, rfl, by simp [exec, execAlignu_zero s hb, faultOf, hb]⟩
    · by_cases ho : 2 ^ 32 ≤ s.a.toNat + s.b.toNat - 1
      · exact ⟨s.setR (alignUp s.a s.b), rfl, rfl,
          by simp only [exec, execAlignu_overflow s hb ho, faultOf, if_neg hb, if_pos ho]⟩
      · exact absurd ((if_neg hb).trans (if_neg ho)) hf
  | npw2 =>
    by_cases hr : s.a = 0#32 ∨ 0x80000000 < s.a.toNat
    · exact ⟨s.drawR, rfl, rfl, by simp only [exec, execNpw2_range s hr, faultOf, if_pos hr]⟩
    · exact absurd (if_neg hr) hf
  | ctz =>
    by_cases ha : s.a = 0#32
    · exact ⟨s.drawR, rfl, rfl, by simp [exec, execCtz_zero s ha, faultOf, ha]⟩
    · exact absurd (if_neg ha) hf
  | crc32 =>
    have hv : ¬s.spanValid := fun h => hf (if_pos h)
    have hbus : faultOf .crc32 s = .busError := if_neg hv
    rw [hbus]
    refine ⟨_, ?_, ?_, execCrc32_refused s hv⟩ <;> rfl

/-- A command whose precondition fails leaves ERR at 1 and the first cause in CAUSE. -/
theorem exec_status_of_faultOf_ne_none {i : Instr} {s t : State} (ht : exec i s = .next t)
    (hf : faultOf i s ≠ .none) : t.err = true ∧ t.cause = if s.err then s.cause else faultOf i s := by
  obtain ⟨u, herr, hcause, h⟩ := exec_eq_raise_faultOf hf
  cases h.symm.trans ht
  exact ⟨u.raise_err _, by rw [u.raise_cause, herr, hcause]⟩

/-- Raising a cause keeps STATUS legal. -/
theorem State.raise_statusLegal {s : State} {c : Cause} (hs : s.statusLegal) (hc : c ≠ .none) :
    (s.raise c).statusLegal := by
  cases herr : s.err with
  | false => simp [State.statusLegal, herr, hc]
  | true => rwa [s.raise_of_err c herr]

/-- Every command keeps STATUS legal. -/
theorem exec_statusLegal {i : Instr} {s t : State} (ht : exec i s = .next t) (hs : s.statusLegal) : t.statusLegal := by
  by_cases hf : faultOf i s = .none
  · obtain ⟨herr, hcause, -⟩ := exec_status_draws_of_faultOf_none ht hf
    rwa [State.statusLegal, herr, hcause]
  · obtain ⟨u, herr, hcause, h⟩ := exec_eq_raise_faultOf hf
    cases h.symm.trans ht
    exact State.raise_statusLegal (by rwa [State.statusLegal, herr, hcause]) hf

/-! ## What a register's store does to each field (10_state.md rules R11 to R18) -/

/-- A write to STATUS with bit 0 set clears ERR and CAUSE. -/
theorem State.writeStatus_clears (s : State) {v : Word} (h : v.getLsbD 0 = true) : s.writeStatus v = s.clearStatus :=
  if_pos h

/-- A write to STATUS with bit 0 clear does nothing. -/
theorem State.writeStatus_ignores (s : State) {v : Word} (h : v.getLsbD 0 = false) : s.writeStatus v = s :=
  if_neg (Bool.eq_false_iff.mp h)

/-- A store to a register other than A, B, ACC and STATUS does nothing, one to A, B or ACC puts the value there, and one
to STATUS clears it or does nothing. -/
theorem State.writeReg_cases (q : Reg) (v : Word) (s : State) :
    (q = .a ∧ s.writeReg q v = { s with a := v }) ∨ (q = .b ∧ s.writeReg q v = { s with b := v }) ∨
      (q = .acc ∧ s.writeReg q v = { s with acc := v }) ∨
      (q = .status ∧ v.getLsbD 0 = true ∧ s.writeReg q v = s.clearStatus) ∨ s.writeReg q v = s := by
  cases q with
  | a => exact .inl ⟨rfl, rfl⟩
  | b => exact .inr (.inl ⟨rfl, rfl⟩)
  | acc => exact .inr (.inr (.inl ⟨rfl, rfl⟩))
  | status =>
    cases h : v.getLsbD 0 with
    | true => exact .inr (.inr (.inr (.inl ⟨rfl, rfl, s.writeStatus_clears h⟩)))
    | false => exact .inr (.inr (.inr (.inr (s.writeStatus_ignores h))))
  | r | cmd | reserved6 | reserved7 => exact .inr (.inr (.inr (.inr rfl)))

/-! ## What an event can do -/

/-- Everything one event `e` can make of a state `s`. -/
inductive EventEffect (s : State) (e : Event) : State → Prop where
  /-- A write to CMD runs a command (rule R15). -/
  | command {t : State} (w : Word) (i : Instr) (hw : registerWrite s e = some (.cmd, w)) (hd : decode w = .ok i)
      (ht : exec i s = .next t) : EventEffect s e t
  /-- A write of another word to CMD raises ILLEGAL_CMD (30_encoding.md rule R44). -/
  | illegal (w : Word) (hw : registerWrite s e = some (.cmd, w)) (hd : ∃ r, decode w = .error r) :
      EventEffect s e (s.raise .illegalCmd)
  /-- A write to A, which stores its value (rule R11). -/
  | storeA (v : Word) (hw : registerWrite s e = some (.a, v)) : EventEffect s e { s with a := v }
  /-- A write to B, which stores its value (rule R12). -/
  | storeB (v : Word) (hw : registerWrite s e = some (.b, v)) : EventEffect s e { s with b := v }
  /-- A write to ACC, which stores its value (rule R14). -/
  | storeAcc (v : Word) (hw : registerWrite s e = some (.acc, v)) : EventEffect s e { s with acc := v }
  /-- A write to STATUS with bit 0 set (rule R16). -/
  | clear (v : Word) (hw : registerWrite s e = some (.status, v)) (hv : v.getLsbD 0 = true) :
      EventEffect s e s.clearStatus
  /-- Reset; the port has read more only where it met CRC32 (70_reset_and_hazards.md rules R100, R101). -/
  | reset (reads : List Addr) (hr : e.isReset = true)
      (hreads : reads ≠ s.portReads → ∃ w k, e = .resetDuring w k ∧ decode w = .ok .crc32) :
      EventEffect s e ({ s with portReads := reads } : State).unitReset
  /-- Another agent's byte, visible at once (20_memory.md rule R37). -/
  | memWrite (x : Addr) (byte : Byte) (he : e = .memWrite x byte) :
      EventEffect s e { s with mem := s.mem.write x.toNat byte }
  /-- Another agent's byte, in flight (rule R33). -/
  | memPost (x : Addr) (byte : Byte) (he : e = .memPost x byte) :
      EventEffect s e { s with posted := s.posted ++ [(x, byte)] }
  /-- The writes in flight become visible (rule R37). -/
  | memPublish (he : e = .memPublish) : EventEffect s e { s with mem := s.mem.writeAll s.posted, posted := [] }
  /-- A register read, or an access that no register takes: what the host has been given is all that can change. -/
  | handed (values : List Word) : EventEffect s e { s with returned := values }

/-- An event that leaves the state alone. -/
theorem EventEffect.unchanged (s : State) (e : Event) : EventEffect s e s := .handed s.returned

/-- The effect of a register write, by number or on the bus. -/
theorem serveWrite_effect {n : RegNum} {v : Word} {e : Event} {s t : State}
    (hw : registerWrite s e = some (decodeReg n, v)) (ht : serveWrite n v s = .next t) : EventEffect s e t := by
  obtain ⟨hn, h⟩ | ⟨-, h⟩ := serveWrite_cases n v s
  · rw [hn] at hw
    obtain ⟨i, hd, hexec⟩ | ⟨hd, hraise⟩ := execWord_cases v s
    · exact .command v i hw hd (hexec.symm.trans (h.symm.trans ht))
    · cases hraise.symm.trans (h.symm.trans ht)
      exact .illegal v hw hd
  · cases h.symm.trans ht
    obtain ⟨hq, hs⟩ | ⟨hq, hs⟩ | ⟨hq, hs⟩ | ⟨hq, hv, hs⟩ | hs := State.writeReg_cases (decodeReg n) v s <;>
      rw [hs]
    · exact .storeA v (hq ▸ hw)
    · exact .storeB v (hq ▸ hw)
    · exact .storeAcc v (hq ▸ hw)
    · exact .clear v (hq ▸ hw) hv
    · exact .unchanged s e

/-- A word that is not CRC32's makes no read before reset takes effect (rule R101). -/
theorem abandonedReads_of_ne_crc32 {w : Word} (h : decode w ≠ .ok .crc32) (k : Nat) (s : State) :
    abandonedReads w k s = s.portReads := by
  refine if_neg fun hd => h ?_
  cases hw : decode w with
  | ok i => rw [hw] at hd; exact congrArg _ (Option.some.inj hd)
  | error _ => rw [hw] at hd; cases hd

/-- Serving an event has one of the effects of `EventEffect`. -/
theorem serve_effect {e : Event} {s t : State} (ht : serve e s = .next t) : EventEffect s e t := by
  cases e with
  | regWrite n v => exact serveWrite_effect rfl ht
  | busWrite x v =>
    obtain ⟨n, hn, h⟩ | ⟨-, h⟩ := serveBusWrite_cases x v s
    · exact serveWrite_effect (by rw [registerWrite, hn]; rfl) (h.symm.trans ht)
    · cases h.symm.trans ht
      exact .unchanged s _
  | regRead n => cases ht; exact .handed _
  | busRead x =>
    cases ht
    obtain ⟨n, -, h⟩ | ⟨-, h⟩ := serveBusRead_cases x s <;> rw [h]
    · exact .handed _
    · exact .unchanged s _
  | memWrite x byte => cases ht; exact .memWrite x byte rfl
  | memPost x byte => cases ht; exact .memPost x byte rfl
  | memPublish => cases ht; exact .memPublish rfl
  | reset => cases ht; exact .reset s.portReads rfl fun h => absurd rfl h
  | resetDuring w k =>
    cases ht
    exact .reset _ rfl fun h => ⟨w, k, rfl, Classical.byContradiction fun hd => h (abandonedReads_of_ne_crc32 hd k s)⟩

/-- A step with an event to come has an effect of that event on the state with the event taken off. -/
theorem step_effect {s t : State} {e : Event} {rest : List Event} (hp : s.pending = e :: rest)
    (ht : step s = .next t) : EventEffect { s with pending := rest } e t :=
  serve_effect ((step_serve s e rest hp).symm.trans ht)

/-- Which register an event writes does not depend on the coming events. -/
theorem registerWrite_pending (s : State) (e : Event) (rest : List Event) :
    registerWrite { s with pending := rest } e = registerWrite s e := by
  cases e <;> rfl

/-! ## The invariant of every step -/

/-- Every event keeps memory in canonical form and STATUS legal. -/
theorem EventEffect.inv {s t : State} {e : Event} (h : EventEffect s e t) (hs : s.Inv) : t.Inv := by
  obtain ⟨hmem, hstatus⟩ := hs
  cases h with
  | command w i _ _ ht =>
    obtain ⟨-, -, htmem, -⟩ := exec_frame ht
    exact ⟨htmem ▸ hmem, exec_statusLegal ht hstatus⟩
  | illegal => exact ⟨(s.raise_mem _).symm ▸ hmem, State.raise_statusLegal hstatus (by decide)⟩
  | clear | reset => exact ⟨hmem, iff_of_true rfl rfl⟩
  | memWrite x byte => exact ⟨Memory.write_wf x byte hmem, hstatus⟩
  | memPublish => exact ⟨Memory.writeAll_wf s.posted hmem, hstatus⟩
  | storeA | storeB | storeAcc | memPost | handed => exact ⟨hmem, hstatus⟩

/-- Settles O8: an idle step keeps the state, and any other step is one event, which keeps the invariant. -/
theorem stepKeepsMemoryFormAndLegalStatus : Obligations.StepKeepsMemoryFormAndLegalStatus := by
  intro s t hs ht
  cases hp : s.pending with
  | nil => cases (step_idle s hp).symm.trans ht; exact hs
  | cons e rest => exact (step_effect hp ht).inv hs

/-! ## Which events change each register -/

namespace EventEffect

variable {s t : State} {e : Event}

/-- A changes only by a host write to it, which stores its value, or by reset (rule R11). -/
theorem a_changes (h : EventEffect s e t) (hne : t.a ≠ s.a) :
    (∃ v, registerWrite s e = some (.a, v) ∧ t.a = v) ∨ e.isReset = true := by
  cases h with
  | command _ _ _ _ ht =>
    obtain ⟨ha, -⟩ := exec_frame ht
    exact absurd ha hne
  | storeA v hw => exact .inl ⟨v, hw, rfl⟩
  | reset _ hr => exact .inr hr
  | illegal => exact absurd (s.raise_a _) hne
  | _ => exact absurd rfl hne

/-- B changes only by a host write to it, which stores its value, or by reset (rule R12). -/
theorem b_changes (h : EventEffect s e t) (hne : t.b ≠ s.b) :
    (∃ v, registerWrite s e = some (.b, v) ∧ t.b = v) ∨ e.isReset = true := by
  cases h with
  | command _ _ _ _ ht =>
    obtain ⟨-, hb, -⟩ := exec_frame ht
    exact absurd hb hne
  | storeB v hw => exact .inl ⟨v, hw, rfl⟩
  | reset _ hr => exact .inr hr
  | illegal => exact absurd (s.raise_b _) hne
  | _ => exact absurd rfl hne

/-- R changes only by a command other than CRC32 or by reset (rule R13). -/
theorem r_changes (h : EventEffect s e t) (hne : t.r ≠ s.r) :
    (∃ w i, registerWrite s e = some (.cmd, w) ∧ decode w = .ok i ∧ i ≠ .crc32) ∨ e.isReset = true := by
  cases h with
  | command w i hw hd ht => exact .inl ⟨w, i, hw, hd, fun hi => hne (exec_crc32_r (hi ▸ ht))⟩
  | reset _ hr => exact .inr hr
  | illegal => exact absurd (s.raise_r _) hne
  | _ => exact absurd rfl hne

/-- ACC changes only by a host write to it, which stores its value, by CRC32 or by reset (rule R14). -/
theorem acc_changes (h : EventEffect s e t) (hne : t.acc ≠ s.acc) :
    (∃ v, registerWrite s e = some (.acc, v) ∧ t.acc = v) ∨
      (∃ w, registerWrite s e = some (.cmd, w) ∧ decode w = .ok .crc32) ∨ e.isReset = true := by
  cases h with
  | command w i hw hd ht =>
    by_cases hi : i = .crc32
    · exact .inr (.inl ⟨w, hw, hi ▸ hd⟩)
    · obtain ⟨hacc, -⟩ := exec_acc_portReads hi ht
      exact absurd hacc hne
  | storeAcc v hw => exact .inl ⟨v, hw, rfl⟩
  | reset _ hr => exact .inr (.inr hr)
  | illegal => exact absurd (s.raise_acc _) hne
  | _ => exact absurd rfl hne

/-- STATUS changes only by a clearing write, a write to CMD or reset (rule R16). -/
theorem status_changes (h : EventEffect s e t) (hne : t.err ≠ s.err ∨ t.cause ≠ s.cause) :
    (∃ v, registerWrite s e = some (.status, v) ∧ v.getLsbD 0 = true) ∨
      (∃ w, registerWrite s e = some (.cmd, w)) ∨ e.isReset = true := by
  cases h with
  | command w _ hw | illegal w hw _ => exact .inr (.inl ⟨w, hw⟩)
  | clear v hw hv => exact .inl ⟨v, hw, hv⟩
  | reset _ hr => exact .inr (.inr hr)
  | _ => simp at hne

/-- The port reads only for CRC32, whole or met by reset (20_memory.md rule R25). -/
theorem portReads_changes (h : EventEffect s e t) (hne : t.portReads ≠ s.portReads) :
    (∃ w, registerWrite s e = some (.cmd, w) ∧ decode w = .ok .crc32) ∨
      ∃ w k, e = .resetDuring w k ∧ decode w = .ok .crc32 := by
  cases h with
  | command w i hw hd ht =>
    by_cases hi : i = .crc32
    · exact .inl ⟨w, hw, hi ▸ hd⟩
    · obtain ⟨-, hreads⟩ := exec_acc_portReads hi ht
      exact absurd hreads hne
  | reset _ _ hreads => exact .inr (hreads hne)
  | illegal => exact absurd (s.raise_portReads _) hne
  | _ => exact absurd rfl hne

end EventEffect

/-- Settles O11: the step is an effect of its event, and the six clauses are what each effect can change. -/
theorem onlyTheseEventsChangeEachRegister : Obligations.OnlyTheseEventsChangeEachRegister := by
  intro s t e rest hp ht
  have h := step_effect hp ht
  rw [← registerWrite_pending s e rest]
  exact ⟨h.a_changes, h.b_changes, h.r_changes, h.acc_changes, h.status_changes, h.portReads_changes⟩

/-! ## Register accesses by number -/

/-- What a register reads as does not depend on the coming events. -/
theorem State.readReg_pending (s : State) (q : Reg) (rest : List Event) :
    ({ s with pending := rest } : State).readReg q = s.readReg q := by
  cases q <;> rfl

/-- A step that serves a register read hands the register's value to the host. -/
theorem step_regRead {s : State} {n : RegNum} {rest : List Event} (hp : s.pending = .regRead n :: rest) :
    step s = .next { s with pending := rest, returned := s.readReg (decodeReg n) :: s.returned } := by
  rw [step_serve s _ rest hp, serve, serveRead, s.readReg_pending]

/-- A step that serves a write to a register other than CMD stores. -/
theorem step_regWrite {s : State} {n : RegNum} {v : Word} {rest : List Event} (hp : s.pending = .regWrite n v :: rest)
    (hn : decodeReg n ≠ .cmd) : step s = .next (({ s with pending := rest } : State).writeReg (decodeReg n) v) :=
  (step_serve s _ rest hp).trans (if_neg hn)

/-- A step that serves a write to CMD runs the word. -/
theorem step_regWrite_cmd {s : State} {w : Word} {rest : List Event} (hp : s.pending = .regWrite 4#3 w :: rest) :
    step s = execWord w { s with pending := rest } := step_serve s _ rest hp

/-- A word that is a command runs it. -/
theorem execWord_ok {w : Word} {i : Instr} (h : decode w = .ok i) (s : State) : execWord w s = exec i s := by
  rw [execWord, h]

/-- A word that is no command raises ILLEGAL_CMD (30_encoding.md rule R44). -/
theorem execWord_error {w : Word} {e : DecodeError} (h : decode w = .error e) (s : State) :
    execWord w s = .next (s.faulted .illegalCmd) := by
  rw [execWord, h]
  exact congrArg _ (s.raise_eq .illegalCmd)

/-- Settles O5: the word is decoded, and each of the decoder's answers has its own outcome. -/
theorem stepRunsTheWordWrittenToCmd : Obligations.StepRunsTheWordWrittenToCmd := by
  refine ⟨fun s w i rest hp hd => ?_, fun s w e rest hp hd => ?_, fun s rest hp => step_regRead hp⟩
  · rw [step_regWrite_cmd hp, execWord_ok hd]
  · rw [step_regWrite_cmd hp, execWord_error hd]

/-- What the table's decoder reads is what the decoder reads from the word cut to its width (entry 13). -/
theorem decode_of_decodeTableWord {nbits w : Nat} {i : Instr} (h : decodeTableWord nbits w = some i) :
    decode (BitVec.ofNat 32 (w % 2 ^ nbits)) = .ok i := by
  rw [decodeTableWord] at h
  split at h
  · cases hd : decode (BitVec.ofNat 32 (w % 2 ^ nbits)) with
    | ok j => rw [hd] at h; exact congrArg _ (Option.some.inj h)
    | error _ => rw [hd] at h; cases h
  · cases h

/-- Settles O6: the placed word is the data of the next write to CMD. -/
theorem placedWordRunsAtTheNextStep : Obligations.PlacedWordRunsAtTheNextStep := by
  intro s nbits w i h
  have hstep : step (s.withFetchWord nbits w) = execWord (BitVec.ofNat 32 (w % 2 ^ nbits)) s := step_regWrite_cmd rfl
  rw [hstep, execWord_ok (decode_of_decodeTableWord h)]

/-- Settles O10: the idle step. -/
theorem idleUnitKeepsItsState : Obligations.IdleUnitKeepsItsState := step_idle

/-- Settles O17: none of the three registers is CMD, so a write stores. -/
theorem hostWritesAndReadsOperandRegisters : Obligations.HostWritesAndReadsOperandRegisters := fun _ _ _ =>
  ⟨fun hp => step_regWrite hp (by decide), fun hp => step_regWrite hp (by decide),
    fun hp => step_regWrite hp (by decide), step_regRead, step_regRead, step_regRead, step_regRead⟩

/-- Each number names a register of its own (rule R18). -/
theorem encodeReg_decodeReg : ∀ n : RegNum, encodeReg (decodeReg n) = n := by decide

/-- Settles O18: R and the reserved numbers ignore a write, and the reserved ones read as 0. -/
theorem strayAccessesChangeNothing : Obligations.StrayAccessesChangeNothing := by
  refine ⟨fun s n rest hn hp => ?_, fun s n v rest hn hp => ?_, encodeReg_decodeReg⟩
  · obtain rfl | rfl := hn <;> exact step_regRead hp
  · obtain rfl | rfl | rfl := hn <;> exact step_regWrite hp (by decide)

/-! ## Register accesses on the bus (rule R22) -/

/-- Settles O20: the register at the address is the one numbered, and where no block stands there is none. -/
theorem busAccessReachesRegisterAtFourTimesItsNumber :
    Obligations.BusAccessReachesRegisterAtFourTimesItsNumber := by
  refine ⟨fun s g n v rest hg hk => ?_, fun s x v rest hx hp => ?_⟩
  · have hreg : ({ s with pending := rest } : State).busReg (g.base + BitVec.ofNat 32 (4 * n.toNat)) = some n :=
      s.busReg_block g n hg hk
    refine ⟨fun hp => ?_, fun hp => ?_⟩
    · rw [step_serve s _ rest hp, serve, serveBusWrite, hreg]
      rfl
    · rw [step_serve s _ rest hp, serve, serveBusRead, hreg]
      rfl
  · have hreg : ({ s with pending := rest } : State).busReg x = none := s.busReg_none x hx
    obtain hp | hp := hp
    · rw [step_serve s _ rest hp, serve, serveBusWrite, hreg]
    · rw [step_serve s _ rest hp, serve, serveBusRead, hreg]

/-! ## STATUS (rule R16) -/

/-- The word of STATUS is its two fields shifted into place, for any code. -/
theorem statusFields_eq_shift_or : ∀ (code : BitVec 4) (err : Bool),
    (((code ++ 0#3) ++ BitVec.ofBool err).setWidth 32 : Word) =
      (code.setWidth 32 <<< 4) ||| (if err then 0x00000001#32 else 0x00000000#32) := by decide

/-- The word a legal STATUS reads as, by its cause (60_exceptions.md rule R86). -/
def Cause.statusWord : Cause → Word
  | .none => 0x00000000#32
  | .illegalCmd => 0x00000011#32
  | .alignZero => 0x00000021#32
  | .alignOvf => 0x00000031#32
  | .npw2Range => 0x00000041#32
  | .ctzZero => 0x00000051#32
  | .busError => 0x00000061#32

/-- A legal STATUS reads as the word of its cause. -/
theorem State.statusWord_of_legal {s : State} (hs : s.statusLegal) : s.statusWord = s.cause.statusWord := by
  unfold State.statusLegal at hs
  have herr : s.err = decide (s.cause ≠ .none) :=
    Bool.eq_iff_iff.mpr (by rw [decide_eq_true_iff, Ne, ← hs, Bool.not_eq_false])
  rw [State.statusWord, herr]
  cases s.cause <;> rfl

/-- The word of a cause is 0 or (c << 4) | 1 with c from 1 to 6. -/
theorem Cause.statusWord_values (c : Cause) : c.statusWord = 0#32 ∨
    ∃ n : Nat, 1 ≤ n ∧ n ≤ 6 ∧ c.statusWord = BitVec.ofNat 32 (n * 16 + 1) := by
  cases c with
  | none => exact .inl rfl
  | illegalCmd => exact .inr ⟨1, by decide⟩
  | alignZero => exact .inr ⟨2, by decide⟩
  | alignOvf => exact .inr ⟨3, by decide⟩
  | npw2Range => exact .inr ⟨4, by decide⟩
  | ctzZero => exact .inr ⟨5, by decide⟩
  | busError => exact .inr ⟨6, by decide⟩

/-- With ERR at 1 every command leaves ERR and CAUSE (60_exceptions.md rule R89). -/
theorem exec_status_of_err {i : Instr} {s t : State} (ht : exec i s = .next t) (herr : s.err = true) :
    t.err = true ∧ t.cause = s.cause := by
  by_cases hf : faultOf i s = .none
  · obtain ⟨hterr, htcause, -⟩ := exec_status_draws_of_faultOf_none ht hf
    exact ⟨hterr.trans herr, htcause⟩
  · simpa [herr] using exec_status_of_faultOf_ne_none ht hf

/-- From a legal STATUS with ERR at 0 a command leaves its own cause, and ERR says whether there is one. -/
theorem exec_status_of_not_err {i : Instr} {s t : State} (ht : exec i s = .next t) (hs : s.statusLegal)
    (herr : s.err = false) : t.cause = faultOf i s ∧ (t.err = true ↔ faultOf i s ≠ .none) := by
  by_cases hf : faultOf i s = .none
  · obtain ⟨hterr, htcause, -⟩ := exec_status_draws_of_faultOf_none ht hf
    simp [hterr, htcause, hf, herr, hs.mp herr]
  · obtain ⟨hterr, htcause⟩ := exec_status_of_faultOf_ne_none ht hf
    simp [hterr, htcause, hf, herr]

/-- Settles O19: the accesses by number, what a command does to STATUS, and the word of each cause. -/
theorem statusReadsAndClearsAsItsFieldsSay : Obligations.StatusReadsAndClearsAsItsFieldsSay := by
  refine ⟨fun s => statusFields_eq_shift_or s.cause.code s.err, fun s rest hp => step_regRead hp,
    fun s v rest hp hv => ?_, fun s v rest hp hv => ?_,
    fun i s t ht hs => ⟨exec_status_of_err ht, exec_status_of_not_err ht hs⟩, rfl, fun s hs => ?_, fun s hs => ?_⟩
  · rw [step_regWrite hp (by decide)]
    exact congrArg _ (State.writeStatus_clears _ hv)
  · rw [step_regWrite hp (by decide)]
    exact congrArg _ (State.writeStatus_ignores _ hv)
  · rw [State.statusWord_of_legal hs]
    exact s.cause.statusWord_values
  · rw [State.statusWord_of_legal hs]
    refine ⟨?_, ?_, ?_, ?_, ?_, ?_, ?_⟩ <;> (intro hc; rw [hc]; rfl)

end Sys2Proof.Machine
end

section
/-! The statements of the family 20_memory.md: the unit only reads the data space, which addresses CRC32 reads, and what
the port returns to a read under the writes of other agents. -/

namespace Sys2Proof.Machine

/-! ## Memory is not the unit's to write (20_memory.md rule R27) -/

/-- Memory changes only by a visible write of another agent or by the publishing of the writes in flight. -/
theorem EventEffect.mem_changes {s t : State} {e : Event} (h : EventEffect s e t) (hne : t.mem ≠ s.mem) :
    (∃ x byte, e = .memWrite x byte) ∨ e = .memPublish := by
  cases h with
  | command _ _ _ _ ht =>
    obtain ⟨-, -, hmem, -⟩ := exec_frame ht
    exact absurd hmem hne
  | illegal => exact absurd (s.raise_mem _) hne
  | memWrite x byte he => exact .inl ⟨x, byte, he⟩
  | memPublish he => exact .inr he
  | _ => exact absurd rfl hne

/-- Settles O12: memory is in the frame of every command, and only the two events left out change it. -/
theorem unitNeverWritesMemory : Obligations.UnitNeverWritesMemory := by
  refine ⟨fun i s t ht => ?_, fun s t e rest hp ht hwrite hpublish => ?_⟩
  · obtain ⟨-, -, hmem, -⟩ := exec_frame ht
    exact ⟨hmem, fun _ => by rw [hmem]⟩
  · have hmem : t.mem = s.mem := by
      refine Classical.byContradiction fun hne => ?_
      obtain ⟨x, byte, he⟩ | he := (step_effect hp ht).mem_changes hne
      · exact hwrite x byte he
      · exact hpublish he
    exact ⟨hmem, fun _ => by rw [hmem]⟩

/-! ## The addresses CRC32 reads (rule R26) -/

/-- The addresses the loop walks are those of the buffer. -/
theorem span_eq_bufferAddrs (x : Addr) (n : Nat) : span x n = bufferAddrs x n := by
  simp [span_eq_map, bufferAddrs, BitVec.ofNat_add]

@[simp] theorem bufferAddrs_length (x : Addr) (n : Nat) : (bufferAddrs x n).length = n := by simp [bufferAddrs]

@[simp] theorem getElem_bufferAddrs (x : Addr) (n i : Nat) (h : i < (bufferAddrs x n).length) :
    (bufferAddrs x n)[i] = BitVec.ofNat 32 (x.toNat + i) := by simp [bufferAddrs]

/-- The addresses of a buffer no longer than the data space are all different. -/
theorem bufferAddrs_nodup (x : Addr) {n : Nat} (hn : n ≤ 2 ^ 32) : (bufferAddrs x n).Nodup := by
  refine List.pairwise_map.mpr (List.nodup_range.imp_of_mem fun {i j} hi hj hne heq => hne ?_)
  have hi : i < n := List.mem_range.mp hi
  have hj : j < n := List.mem_range.mp hj
  have hmod : (x.toNat + i) % 2 ^ 32 = (x.toNat + j) % 2 ^ 32 := by
    rw [← BitVec.toNat_ofNat, heq, BitVec.toNat_ofNat]
  omega

/-- CRC32 reads the addresses of its buffer before the first refused one. -/
theorem exec_crc32_portReads {s t : State} (ht : exec .crc32 s = .next t) :
    t.portReads = ((bufferAddrs s.a s.b.toNat).takeWhile s.memValid).reverse ++ s.portReads := by
  have hreads : (crcRun s s.byteCount).reads = ((span s.a s.b.toNat).takeWhile s.memValid).reverse ++ s.portReads :=
    crcLoop_reads s s.b.toNat s.a _ s.portReads
  rw [← span_eq_bufferAddrs, ← hreads]
  simp only [exec, execCrc32] at ht
  split at ht
  · cases ht
    rfl
  · cases ht
    rw [State.raise_portReads, State.drawAcc_portReads]

/-- Settles O52: the port reads the buffer's addresses up to the first refused one, and they are all different. -/
theorem crc32ReadsItsBufferOnceInOrder : Obligations.Crc32ReadsItsBufferOnceInOrder :=
  ⟨fun _ _ ht => exec_crc32_portReads ht,
    fun x n hn => ⟨bufferAddrs_nodup x (Nat.le_of_lt hn), bufferAddrs_length x n, fun i h => by simp⟩⟩

/-! ## What a read of the port returns (rule R33) -/

/-- A read sees the byte under the writes in flight or one of those to its address. -/
theorem seenByte_cases (n : Nat) (x : Addr) (j : Nat) (ws : List (Addr × Byte)) (cur : Byte) :
    seenByte n x j ws cur = cur ∨ ∃ w ∈ ws, w.1 = x ∧ seenByte n x j ws cur = w.2 := by
  induction ws generalizing j cur with
  | nil => exact .inl rfl
  | cons w ws ih =>
    rw [seenByte]
    obtain h | ⟨v, hv, hx, h⟩ := ih (j + 1) (if w.1 = x && Config.seesPosted n j then w.2 else cur)
    · rw [h]
      split
      next hw => exact .inr ⟨w, List.mem_cons_self, of_decide_eq_true (Bool.and_eq_true_iff.mp hw).1, rfl⟩
      next => exact .inl rfl
    · exact .inr ⟨v, List.mem_cons_of_mem w hv, hx, h⟩

/-- A read of plain memory returns memory's byte or that of a write in flight to the same address. -/
theorem State.portByte_cases (s : State) (n : Nat) (x : Addr) (hp : s.plain x = true) :
    s.portByte n x = s.mem.read x.toNat ∨ ∃ w ∈ s.posted, w.1 = x ∧ s.portByte n x = w.2 := by
  rw [State.portByte, if_pos hp]
  exact seenByte_cases n x 0 s.posted _

@[simp] theorem State.portBytes_length (s : State) (n : Nat) (xs : List Addr) :
    (s.portBytes n xs).length = xs.length := by
  induction xs generalizing n with
  | nil => rfl
  | cons x xs ih => simp [State.portBytes, ih]

/-- The i-th of a row of reads is one read of the i-th address, numbered i later than the first. -/
theorem State.getElem_portBytes (s : State) (n : Nat) (xs : List Addr) (i : Nat) (h : i < (s.portBytes n xs).length) :
    (s.portBytes n xs)[i] = s.portByte (n + i) (xs[i]'(by simpa using h)) := by
  induction xs generalizing n i with
  | nil => simp at h
  | cons x xs ih =>
    cases i with
    | zero => rfl
    | succ i => simp [State.portBytes, ih, Nat.add_right_comm n 1 i, Nat.add_assoc]

/-- Settles O51: a read is memory's byte under the writes in flight, and ACC is the fold of one read an address. -/
theorem crc32FoldsWhateverBytesThePortReturned : Obligations.Crc32FoldsWhateverBytesThePortReturned := by
  refine ⟨State.portByte_cases, State.portByte_plain, fun s hs => ?_⟩
  refine ⟨s.portBytes s.portReads.length (bufferAddrs s.a s.b.toNat), by simp, fun i h => ?_, ?_⟩
  · rw [State.getElem_portBytes, getElem_bufferAddrs]
  · rw [← span_eq_bufferAddrs]
    exact execCrc32_valid s hs

/-! ## Writes of other agents (rules R33 and R37, 70_reset_and_hazards.md rule R105) -/

theorem Memory.writeAll_append (m : Memory) (us vs : List (Addr × Byte)) :
    m.writeAll (us ++ vs) = (m.writeAll us).writeAll vs := by
  induction us generalizing m with
  | nil => rfl
  | cons u us ih => exact ih _

/-- After several writes a byte is that of the newest write to it. -/
theorem Memory.read_writeAll_newest (m : Memory) (before after : List (Addr × Byte)) (x : Addr) (byte : Byte)
    (h : ∀ w ∈ after, w.1 ≠ x) : (m.writeAll (before ++ (x, byte) :: after)).read x.toNat = byte := by
  rw [Memory.writeAll_append, Memory.writeAll, Memory.read_writeAll_other after _ x h, Memory.read_write_same]

/-- With one more write in flight, the newest, a read of plain memory at its address sees it or not, freely; every other
read returns what it would have returned. -/
theorem State.portByte_post (s : State) (rest : List Event) (w : Addr × Byte) (n : Nat) (y : Addr) :
    ({ s with pending := rest, posted := s.posted ++ [w] } : State).portByte n y =
      if s.plain y ∧ w.1 = y ∧ Config.seesPosted n s.posted.length then w.2 else s.portByte n y := by
  have hp : ({ s with pending := rest, posted := s.posted ++ [w] } : State).plain y = s.plain y := rfl
  unfold State.portByte
  rw [hp, seenByte_append]
  cases s.plain y <;> simp

/-- Settles O59: each of the three events has one next state, and its reads are those of the lemmas above. -/
theorem visibleWritesAreSeenByThePort : Obligations.VisibleWritesAreSeenByThePort := by
  refine ⟨fun s x byte rest hp => ?_, fun s x byte rest hp => ?_, fun s rest hp => ?_⟩
  · refine ⟨_, step_serve s _ rest hp, fun y => ?_, fun hquiet hplain n => ?_, rfl, rfl, rfl, rfl, rfl, rfl, rfl⟩
    · simp only [Memory.read_write, BitVec.toNat_inj]
    · exact (State.portByte_plain _ n x hplain hquiet).trans (Memory.read_write_same _ _ _)
  · refine ⟨_, step_serve s _ rest hp, rfl, fun n hplain => ?_, fun n y hy => ?_⟩
    · have hs : s.plain x = true := hplain
      simp [State.portByte_post, hs]
    · simp [State.portByte_post, hy.symm]
  · refine ⟨_, step_serve s _ rest hp, rfl, fun y hquiet => ?_, fun before after y byte hposted hafter => ?_,
      fun n y hplain => ?_⟩
    · exact Memory.read_writeAll_other s.posted s.mem y hquiet
    · simp only [hposted]
      exact s.mem.read_writeAll_newest before after y byte hafter
    · exact State.portByte_plain _ n y hplain fun _ h => nomatch h

end Sys2Proof.Machine
end

section
/-! The statements of the family 30_encoding.md: the decoder and its inverse, illegal command words, assembler lines,
and what the result of a command depends on. -/

namespace Sys2Proof

/-! ## The decoder and its inverse (30_encoding.md rules R41 and R42) -/

/-- The fourteen commands in the order of rule R42. -/
def allInstrs : List Instr :=
  [.max, .min, .scmp, .alignd, .alignu, .npw2, .clz, .ctz, .popc, .fromle32, .tole32, .frombe32, .tobe32, .crc32]

theorem mem_allInstrs (i : Instr) : i ∈ allInstrs := by cases i <;> decide

/-- The `match` column is the encoding of the mnemonics, row by row. -/
theorem matchWords_eq_map_encode : matchWords = allInstrs.map encode := by decide

/-- The legal words are those of the commands. -/
theorem legalWord_iff_exists_encode (w : Word) : legalWord w = true ↔ ∃ i, encode i = w := by
  simp [legalWord, matchWords_eq_map_encode, mem_allInstrs]

/-- The decoder reads back what the encoder writes. -/
@[simp] theorem decode_encode (i : Instr) : decode (encode i) = .ok i := by cases i <;> rfl

/-- The opcode map answers a command only at the command's own family and function. -/
theorem fam_fn_of_lookup {fam fn : Nat} {i : Instr} (h : lookup fam fn = .ok i) :
    i.fam.toNat = fam ∧ i.fn.toNat = fn := by
  unfold lookup at h
  split at h <;> cases h <;> exact ⟨rfl, rfl⟩

/-- A word that decodes is the word of its command: its three fields are the command's. -/
theorem encode_of_decode {w : Word} {i : Instr} (h : decode w = .ok i) : encode i = w := by
  unfold decode at h
  split at h
  next hzero =>
    obtain ⟨hfam, hfn⟩ := fam_fn_of_lookup h
    rw [encode, BitVec.eq_of_toNat_eq hfam, BitVec.eq_of_toNat_eq hfn, ← hzero, fields_append]
  next => cases h

/-- Decoding and encoding are inverse to each other. -/
theorem decode_eq_ok_iff (w : Word) (i : Instr) : decode w = .ok i ↔ encode i = w :=
  ⟨encode_of_decode, fun h => h ▸ decode_encode i⟩

/-- The decoder accepts exactly the legal words. -/
theorem exists_decode_eq_ok_iff (w : Word) : (∃ i, decode w = .ok i) ↔ legalWord w = true := by
  simp only [decode_eq_ok_iff, legalWord_iff_exists_encode]

/-- The decoder refuses exactly the words that are not legal (rule R44). -/
theorem exists_decode_eq_error_iff (w : Word) : (∃ e, decode w = .error e) ↔ legalWord w = false := by
  rw [← Bool.not_eq_true, ← exists_decode_eq_ok_iff]
  cases decode w <;> simp

/-- A word with a non-zero upper field is not legal (rule R44). -/
theorem legalWord_of_upper_ne_zero {w : Word} (h : w.extractLsb' 8 24 ≠ 0#24) : legalWord w = false :=
  (exists_decode_eq_error_iff w).mp ⟨_, decode_upper w h⟩

/-- Settles O1: decoding inverts encoding, and the legal words are the encodings. -/
theorem decoderAcceptsExactlyTheFourteenWords : Obligations.DecoderAcceptsExactlyTheFourteenWords :=
  ⟨exists_decode_eq_ok_iff, fun w h => ⟨_, decode_upper w h⟩, fun w h => (exists_decode_eq_error_iff w).mpr h,
    decode_eq_ok_iff⟩

/-- Settles O2: each row's word is the encoding of its mnemonic, which decodes to it. -/
theorem opcodeMapDecodesRowByRow : Obligations.OpcodeMapDecodesRowByRow := by
  unfold Obligations.OpcodeMapDecodesRowByRow
  simp [matchWords_eq_map_encode, allInstrs, Except.toOption]

end Sys2Proof

namespace Sys2Proof.Machine

/-! ## Illegal command words and assembler lines (rules R44 and R46) -/

/-- A word that is not legal raises ILLEGAL_CMD and changes nothing else. -/
theorem execWord_of_not_legal {w : Word} (h : legalWord w = false) (s : State) :
    execWord w s = .next (s.faulted .illegalCmd) := by
  obtain ⟨e, he⟩ := (exists_decode_eq_error_iff w).mpr h
  exact execWord_error he s

/-- The words with a zero upper field that are legal are the fourteen of the `match` column, none of them lost. -/
theorem filter_legalWord_perm_matchWords :
    ((List.range 256).filter fun n => legalWord (BitVec.ofNat 32 n)).Perm (matchWords.map BitVec.toNat) := by
  have hsmall : ∀ w ∈ matchWords, w.toNat < 256 := by simp [matchWords]
  refine (List.perm_ext_iff_of_nodup (List.nodup_range.filter _) (by decide)).mpr fun n => ?_
  rw [List.mem_filter, List.mem_range, legalWord, List.contains_iff_mem, List.mem_map]
  constructor
  · rintro ⟨hn, hw⟩
    exact ⟨_, hw, by rw [BitVec.toNat_ofNat]; omega⟩
  · rintro ⟨w, hw, rfl⟩
    exact ⟨hsmall w hw, by rwa [BitVec.ofNat_toNat, BitVec.setWidth_eq]⟩

/-- Of the 256 words with a zero upper field all but the fourteen are illegal. -/
theorem countP_not_legalWord : (List.range 256).countP (fun n => !legalWord (BitVec.ofNat 32 n)) = 242 := by
  have hlegal : (List.range 256).countP (fun n => legalWord (BitVec.ofNat 32 n)) = 14 := by
    rw [List.countP_eq_length_filter, filter_legalWord_perm_matchWords.length_eq]
    rfl
  have hsum := List.length_eq_countP_add_countP (fun n => legalWord (BitVec.ofNat 32 n)) (l := List.range 256)
  rw [hlegal, List.length_range] at hsum
  simp only [Bool.not_eq_true, Bool.decide_eq_false] at hsum
  omega

/-- Settles O3: the decoder refuses the word, and the write to CMD is the word's execution. -/
theorem illegalWordRaisesIllegalCmdAndNothingElse : Obligations.IllegalWordRaisesIllegalCmdAndNothingElse := by
  refine ⟨fun w s h => execWord_of_not_legal h s, fun w h => legalWord_of_upper_ne_zero h, countP_not_legalWord,
    by decide, by decide, fun w s rest hp h => ?_⟩
  rw [step_regWrite_cmd hp, execWord_of_not_legal h]

/-- Settles O4: the line of a mnemonic writes its word to CMD, and that word decodes to the command. -/
theorem assemblerLineIsOneRegisterAccess : Obligations.AssemblerLineIsOneRegisterAccess := by
  refine ⟨fun q v => ⟨rfl, decodeReg_encodeReg q⟩, fun q => rfl, fun i => rfl, fun i s rest hp => ?_⟩
  rw [step_regWrite_cmd hp, execWord_ok (decode_encode i)]

/-! ## The result of a command (rules R42 and R43) -/

/-- What a command puts into R for the operands `a` and `b`: none where R takes a free value (00_scope.md rule R7), and
none for CRC32, which writes no R. -/
def specifiedResult (i : Instr) (a b : Word) : Option Word :=
  match i with
  | .max => some (maxU a b)
  | .min => some (minU a b)
  | .scmp => some (seqCompare a b)
  | .alignd => if b = 0#32 then none else some (alignDown a b)
  | .alignu => if b = 0#32 then none else some (alignUp a b)
  | .npw2 => if a = 0#32 ∨ 0x80000000 < a.toNat then none else some (nextPow2 a)
  | .clz => some (BitVec.ofNat 32 (clz32 a))
  | .ctz => if a = 0#32 then none else some (BitVec.ofNat 32 (ctz32 a))
  | .popc => some (BitVec.ofNat 32 (popcount32 a))
  | .fromle32 | .tole32 => some a
  | .frombe32 | .tobe32 => some (bswap32 a)
  | .crc32 => none

/-- R takes a specified result, or the next free value where there is none. -/
def State.putR (result : Option Word) (s : State) : State :=
  match result with
  | some v => s.setR v
  | none => s.drawR

/-- The raise of a cause, where there is one. -/
def State.raiseIf (c : Cause) (s : State) : State := if c = .none then s else s.raise c

section
variable (s : State) (c : Cause) (result : Option Word)

@[simp] theorem State.putR_a : (s.putR result).a = s.a := by cases result <;> rfl
@[simp] theorem State.putR_b : (s.putR result).b = s.b := by cases result <;> rfl
@[simp] theorem State.putR_r : (s.putR result).r = result.getD (Config.freeWord s.draws) := by cases result <;> rfl

@[simp] theorem State.raiseIf_a : (s.raiseIf c).a = s.a := by unfold State.raiseIf; split <;> simp
@[simp] theorem State.raiseIf_b : (s.raiseIf c).b = s.b := by unfold State.raiseIf; split <;> simp
@[simp] theorem State.raiseIf_r : (s.raiseIf c).r = s.r := by unfold State.raiseIf; split <;> simp
@[simp] theorem State.raiseIf_draws : (s.raiseIf c).draws = s.draws := by unfold State.raiseIf; split <;> simp

/-- Writing R commutes with the raise. -/
theorem State.setR_raiseIf (v : Word) : (s.raiseIf c).setR v = (s.setR v).raiseIf c := by
  unfold State.raiseIf
  split
  · rfl
  · simp only [State.raise_eq]
    rfl

/-- The same cause raised again changes nothing (60_exceptions.md rule R89). -/
theorem State.raiseIf_raiseIf : (s.raiseIf c).raiseIf c = s.raiseIf c := by
  by_cases hc : c = .none
  · simp [State.raiseIf, hc]
  · simp [State.raiseIf, hc, State.raise_of_err]

end

/-- A command other than CRC32 puts its result into R, specified or drawn, and then raises its cause if it has one. -/
theorem exec_eq_putR_raiseIf {i : Instr} (hi : i ≠ .crc32) (s : State) :
    exec i s = .next ((s.putR (specifiedResult i s.a s.b)).raiseIf (faultOf i s)) := by
  cases i with
  | crc32 => exact absurd rfl hi
  | max | min | scmp | clz | popc | fromle32 | tole32 | frombe32 | tobe32 => rfl
  | alignd =>
    by_cases hb : s.b = 0#32
    · simp [exec, execAlignd_zero, specifiedResult, faultOf, hb, State.putR, State.raiseIf]
    · simp [exec, execAlignd_nonzero, specifiedResult, faultOf, hb, State.putR, State.raiseIf]
  | alignu =>
    by_cases hb : s.b = 0#32
    · simp [exec, execAlignu_zero, specifiedResult, faultOf, hb, State.putR, State.raiseIf]
    · by_cases ho : 2 ^ 32 ≤ s.a.toNat + s.b.toNat - 1
      · simp only [exec, execAlignu_overflow s hb ho, specifiedResult, faultOf, if_neg hb, if_pos ho]
        rfl
      · simp only [exec, execAlignu_fits s hb (Nat.lt_of_not_le ho), specifiedResult, faultOf, if_neg hb, if_neg ho]
        rfl
  | npw2 =>
    by_cases hr : s.a = 0#32 ∨ 0x80000000 < s.a.toNat
    · simp only [exec, execNpw2_range s hr, specifiedResult, faultOf, if_pos hr]
      rfl
    · simp only [exec, execNpw2_valid s hr, specifiedResult, faultOf, if_neg hr]
      rfl
  | ctz =>
    by_cases ha : s.a = 0#32
    · simp [exec, execCtz_zero, specifiedResult, faultOf, ha, State.putR, State.raiseIf]
    · simp [exec, execCtz_nonzero, specifiedResult, faultOf, ha, State.putR, State.raiseIf]

/-- R after a command other than CRC32. -/
theorem exec_r {i : Instr} (hi : i ≠ .crc32) {s t : State} (ht : exec i s = .next t) :
    t.r = (specifiedResult i s.a s.b).getD (Config.freeWord s.draws) := by
  cases (exec_eq_putR_raiseIf hi s).symm.trans ht
  simp

/-- The commands other than the five two-operand ones do not read B (rule R42). -/
theorem specifiedResult_congr {i : Instr} (a : Word) {b b' : Word}
    (h : i ∈ [Instr.max, .min, .scmp, .alignd, .alignu] → b = b') :
    specifiedResult i a b = specifiedResult i a b' := by
  cases i with
  | max | min | scmp | alignd | alignu => rw [h (by decide)]
  | npw2 | clz | ctz | popc | fromle32 | tole32 | frombe32 | tobe32 | crc32 => rfl

/-- Settles O28: R is the specified result of the operands read, or the free value of the count of draws. -/
theorem resultDependsOnTheReadColumnOnly : Obligations.ResultDependsOnTheReadColumnOnly := by
  intro i s u t v hi ha hdraws hb ht hv
  rw [exec_r hi ht, exec_r hi hv, ha, hdraws, specifiedResult_congr u.a hb]

/-- The fault of a command other than CRC32 depends on A and B alone. -/
theorem faultOf_congr {i : Instr} (hi : i ≠ .crc32) {s u : State} (ha : s.a = u.a) (hb : s.b = u.b) :
    faultOf i s = faultOf i u := by
  cases i with
  | crc32 => exact absurd rfl hi
  | alignd | alignu | npw2 | ctz => simp only [faultOf, ha, hb]
  | max | min | scmp | clz | popc | fromle32 | tole32 | frombe32 | tobe32 => rfl

/-- A command other than CRC32 that drew no free value put a specified result into R. -/
theorem exec_eq_setR_raiseIf_of_draws {i : Instr} (hi : i ≠ .crc32) {s t : State} (ht : exec i s = .next t)
    (hdraws : t.draws = s.draws) :
    ∃ v, specifiedResult i s.a s.b = some v ∧ t = (s.setR v).raiseIf (faultOf i s) := by
  cases (exec_eq_putR_raiseIf hi s).symm.trans ht
  cases hv : specifiedResult i s.a s.b with
  | some v => exact ⟨v, rfl, rfl⟩
  | none => simp [hv, State.putR] at hdraws

/-- Settles O29: A and B are still there, so the same result is put into R and the same cause raised once more. -/
theorem repeatedCommandChangesNothingMore : Obligations.RepeatedCommandChangesNothingMore := by
  intro i s t hi ht hdraws
  obtain ⟨v, hv, heq⟩ := exec_eq_setR_raiseIf_of_draws hi ht hdraws
  obtain ⟨ha, hb, -⟩ := exec_frame ht
  have hagain : (t.setR v).raiseIf (faultOf i s) = t := by
    rw [heq, State.setR_raiseIf, State.raiseIf_raiseIf]
    rfl
  rw [exec_eq_putR_raiseIf hi t, ha, hb, hv, faultOf_congr hi ha hb]
  exact congrArg _ hagain

end Sys2Proof.Machine
end

section
/-! The statements of the family 40_compare.md: MAX and MIN as the greater and the lesser unsigned value, SCMP as the
difference of its operands modulo 2^32 and what its signed reading says of counters. -/

namespace Sys2Proof.Machine

section
variable {a b : Word}

/-! ## MAX and MIN (40_compare.md rules R50 and R51) -/

theorem zero_le_word (a : Word) : 0#32 ≤ a := BitVec.not_lt.mp BitVec.not_lt_zero

theorem word_le_top (a : Word) : a ≤ 0xFFFFFFFF#32 := BitVec.not_lt.mp BitVec.not_allOnes_lt

theorem maxU_of_ge (h : b ≤ a) : maxU a b = a := if_pos h

theorem maxU_of_le (h : a ≤ b) : maxU a b = b := by
  by_cases hba : b ≤ a
  · rw [maxU_of_ge hba, BitVec.le_antisymm h hba]
  · exact if_neg hba

theorem minU_of_le (h : a ≤ b) : minU a b = a := if_pos h

theorem minU_of_ge (h : b ≤ a) : minU a b = b := by
  by_cases hab : a ≤ b
  · rw [minU_of_le hab, BitVec.le_antisymm hab h]
  · exact if_neg hab

/-- The pair of MIN and MAX is the pair of the operands. -/
theorem minU_maxU_pair (a b : Word) : (minU a b = a ∧ maxU a b = b) ∨ (minU a b = b ∧ maxU a b = a) := by
  obtain h | h := BitVec.le_total a b
  · exact .inl ⟨minU_of_le h, maxU_of_le h⟩
  · exact .inr ⟨minU_of_ge h, maxU_of_ge h⟩

theorem maxU_eq_or (a b : Word) : maxU a b = a ∨ maxU a b = b := by
  obtain ⟨-, h⟩ | ⟨-, h⟩ := minU_maxU_pair a b
  · exact .inr h
  · exact .inl h

theorem minU_le_maxU (a b : Word) : minU a b ≤ maxU a b := by
  obtain h | h := BitVec.le_total a b
  · rwa [minU_of_le h, maxU_of_le h]
  · rwa [minU_of_ge h, maxU_of_ge h]

/-! ## SCMP and the signed reading (rule R52) -/

/-- The signed reading of the model is that of two's complement (00_scope.md rule R6). -/
theorem toS32_eq_toInt (v : Word) : toS32 v = v.toInt := by
  rw [BitVec.toInt_eq_msb_cond, BitVec.msb_eq_getLsbD_last]
  rfl

/-- Bit 31 is the sign. -/
theorem getLsbD_31_iff_toS32_neg (v : Word) : v.getLsbD 31 = true ↔ toS32 v < 0 := by
  rw [toS32_eq_toInt, ← decide_eq_true_iff (p := v.toInt < 0), ← BitVec.msb_eq_toInt, BitVec.msb_eq_getLsbD_last]

theorem toS32_pos {v : Word} (hv : v ≠ 0#32) (hsign : v.getLsbD 31 = false) : 0 < toS32 v := by
  have hneg : ¬ toS32 v < 0 := by
    rw [← getLsbD_31_iff_toS32_neg, hsign]
    exact Bool.false_ne_true
  have hzero : toS32 v ≠ 0 := by simpa [toS32_eq_toInt, ← BitVec.toInt_inj] using hv
  omega

theorem toS32_bounds (v : Word) : -(2 : Int) ^ 31 ≤ toS32 v ∧ toS32 v < (2 : Int) ^ 31 := by
  rw [toS32_eq_toInt]
  exact ⟨v.le_toInt, v.toInt_lt⟩

@[simp] theorem seqCompare_self (a : Word) : seqCompare a a = 0#32 := BitVec.sub_self a

theorem seqCompare_eq_zero_iff : seqCompare a b = 0#32 ↔ a = b := by
  rw [seqCompare, BitVec.sub_eq_iff_eq_add, BitVec.zero_add]

/-- Exchanging the operands negates the difference. -/
theorem neg_seqCompare (a b : Word) : -seqCompare a b = seqCompare b a := by
  rw [seqCompare, seqCompare, BitVec.neg_sub, BitVec.add_comm, BitVec.sub_eq_add_neg]

@[simp] theorem seqCompare_succ_left (a : Word) : seqCompare (a + 1#32) a = 0x00000001#32 := by
  rw [seqCompare, BitVec.add_comm, BitVec.add_sub_cancel]

@[simp] theorem seqCompare_succ_right (a : Word) : seqCompare a (a + 1#32) = 0xFFFFFFFF#32 := by
  rw [← neg_seqCompare, seqCompare_succ_left]
  rfl

/-- SCMP of two residues modulo 2^32 is the residue of the difference of the integers. -/
theorem seqCompare_ofInt (x y : Int) :
    seqCompare (BitVec.ofInt 32 x) (BitVec.ofInt 32 y) = BitVec.ofInt 32 (x - y) := by
  rw [seqCompare, BitVec.sub_eq_add_neg, ← BitVec.ofInt_neg, ← BitVec.ofInt_add, Int.sub_eq_add_neg]

/-- SCMP is the difference over the integers, brought back to 32 bits. -/
theorem seqCompare_eq_ofInt (a b : Word) : seqCompare a b = BitVec.ofInt 32 ((a.toNat : Int) - (b.toNat : Int)) := by
  simp [← seqCompare_ofInt]

/-- The signed reading of SCMP is the distance reduced modulo 2^32 into the signed range (rule R53). -/
theorem toS32_seqCompare_ofInt (x y : Int) :
    toS32 (seqCompare (BitVec.ofInt 32 x) (BitVec.ofInt 32 y)) = (x - y).bmod (2 ^ 32) := by
  rw [seqCompare_ofInt, toS32_eq_toInt, BitVec.toInt_ofInt]

end

/-! ## The statements -/

/-- Settles O30: the unit compares as numbers, and MAX is one of its operands. -/
theorem maxIsTheGreaterUnsigned : Obligations.MaxIsTheGreaterUnsigned :=
  ⟨decode_encode .max, fun _ => rfl,
    fun a => ⟨maxU_of_ge (BitVec.le_refl a), maxU_of_ge (zero_le_word a), maxU_of_le (word_le_top a)⟩,
    maxU_eq_or, by decide⟩

/-- Settles O31: the unit compares as numbers, and MIN and MAX share out the operands. -/
theorem minIsTheLesserUnsigned : Obligations.MinIsTheLesserUnsigned :=
  ⟨decode_encode .min, fun _ => rfl,
    fun a => ⟨minU_of_le (BitVec.le_refl a), minU_of_ge (zero_le_word a), minU_of_le (word_le_top a)⟩,
    fun a b => ⟨minU_le_maxU a b, minU_maxU_pair a b⟩, by decide, by decide⟩

/-- Settles O32: the difference of the words is that of the numbers, and 2^31 is its own negative modulo 2^32. -/
theorem scmpIsTheWrappedDifference : Obligations.ScmpIsTheWrappedDifference := by
  refine ⟨decode_encode .scmp, fun s => ?_, fun a b => ?_, fun a b h => ?_,
    fun a => ⟨seqCompare_succ_right a, seqCompare_succ_left a⟩, by decide, by decide⟩
  · rw [← seqCompare_eq_ofInt]
    rfl
  · exact ⟨seqCompare_eq_zero_iff, getLsbD_31_iff_toS32_neg _, toS32_pos, toS32_bounds _⟩
  · have hab : seqCompare a b = 0x80000000#32 := h
    refine ⟨hab, ?_⟩
    rw [← neg_seqCompare, hab]
    rfl

/-- Settles O33: a distance in the signed range is its own reduction. -/
theorem scmpAgreesWithTheTrueDistanceInRange : Obligations.ScmpAgreesWithTheTrueDistanceInRange := by
  refine fun x y => ⟨fun hlo hhi => ?_, toS32_seqCompare_ofInt x y⟩
  rw [toS32_seqCompare_ofInt]
  exact Int.bmod_eq_of_le_mul_two (by omega) (by omega)

/-- Settles O34: the differences of neighbours do not depend on the value. -/
theorem scmpOrdersNeighboursWithoutException : Obligations.ScmpOrdersNeighboursWithoutException := by
  intro a
  rw [seqCompare_succ_right, seqCompare_succ_left, seqCompare_self]
  decide

end Sys2Proof.Machine
end

section
/-! The statements of the family 41_align_pow2.md: ALIGND as the greatest multiple below, ALIGNU as the least multiple
above through ALIGND of the wrapped sum, and NPW2 through the one fact about its exponent, `npw2Exponent_le_iff`. -/

namespace Sys2Proof.Machine

/-! ## Rounding down (41_align_pow2.md rules R55 and R56) -/

section
variable {a b : Word}

/-- Rounding down over the numbers. -/
theorem toNat_alignDown (a b : Word) : (alignDown a b).toNat = a.toNat - a.toNat % b.toNat := by
  have hle : a % b ≤ a := by
    rw [BitVec.le_def, BitVec.toNat_umod]
    exact Nat.mod_le _ _
  rw [alignDown, BitVec.toNat_sub_of_le hle, BitVec.toNat_umod]

theorem alignDown_eq_ofNat (a b : Word) : alignDown a b = BitVec.ofNat 32 (a.toNat - a.toNat % b.toNat) := by
  rw [← toNat_alignDown, BitVec.ofNat_toNat, BitVec.setWidth_eq]

theorem toNat_alignDown_le (a b : Word) : (alignDown a b).toNat ≤ a.toNat := by
  rw [toNat_alignDown]
  exact Nat.sub_le _ _

theorem dvd_toNat_alignDown (a b : Word) : b.toNat ∣ (alignDown a b).toNat := by
  rw [toNat_alignDown]
  exact Nat.dvd_sub_mod _

theorem toNat_pos_of_ne_zero (h : a ≠ 0#32) : 0 < a.toNat :=
  Nat.pos_of_ne_zero fun h0 => h (BitVec.eq_of_toNat_eq h0)

/-- Rounding down takes away less than one alignment. -/
theorem toNat_lt_alignDown_add (a : Word) (hb : b ≠ 0#32) : a.toNat < (alignDown a b).toNat + b.toNat := by
  have hrem := Nat.mod_lt a.toNat (toNat_pos_of_ne_zero hb)
  rw [toNat_alignDown]
  omega

/-- No greater multiple is not above the operand. -/
theorem le_toNat_alignDown (hb : b ≠ 0#32) {m : Nat} (hm : b.toNat ∣ m) (hma : m ≤ a.toNat) :
    m ≤ (alignDown a b).toNat :=
  Nat.le_of_lt_add_of_dvd (Nat.lt_of_le_of_lt hma (toNat_lt_alignDown_add a hb)) hm (dvd_toNat_alignDown a b)

theorem alignDown_of_lt (h : a.toNat < b.toNat) : alignDown a b = 0#32 :=
  BitVec.eq_of_toNat_eq
    (Nat.eq_zero_of_dvd_of_lt (dvd_toNat_alignDown a b) (Nat.lt_of_le_of_lt (toNat_alignDown_le a b) h))

theorem alignDown_of_dvd (h : b.toNat ∣ a.toNat) : alignDown a b = a :=
  BitVec.eq_of_toNat_eq (by rw [toNat_alignDown, Nat.mod_eq_zero_of_dvd h, Nat.sub_zero])

theorem alignDown_top (a : Word) :
    alignDown a 0xFFFFFFFF#32 = if a = 0xFFFFFFFF#32 then 0xFFFFFFFF#32 else 0#32 := by
  split
  next h => rw [h, alignDown_of_dvd (Nat.dvd_refl _)]
  next h => exact alignDown_of_lt (Nat.lt_of_le_of_ne (word_le_top a) (BitVec.toNat_ne_iff_ne.mpr h))

/-! ### Powers of two -/

theorem toNat_one_shiftLeft {k : Nat} (hk : k < 32) : (1#32 <<< k).toNat = 2 ^ k := by
  rw [← BitVec.twoPow_eq, BitVec.toNat_twoPow_of_lt hk]

theorem one_shiftLeft_ne_zero {k : Nat} (hk : k < 32) : 1#32 <<< k ≠ 0#32 := by
  rw [← BitVec.toNat_ne_iff_ne, toNat_one_shiftLeft hk]
  exact Nat.ne_of_gt (Nat.two_pow_pos k)

/-- The remainder by a power of two is a mask. -/
theorem umod_one_shiftLeft (a : Word) {k : Nat} (hk : k < 32) : a % (1#32 <<< k) = a &&& ((1#32 <<< k) - 1#32) := by
  have hone : 1#32 ≤ 1#32 <<< k := by
    rw [BitVec.le_def, toNat_one_shiftLeft hk]
    exact Nat.two_pow_pos k
  apply BitVec.eq_of_toNat_eq
  rw [BitVec.toNat_umod, BitVec.toNat_and, BitVec.toNat_sub_of_le hone, toNat_one_shiftLeft hk]
  exact (Nat.and_two_pow_sub_one_eq_mod _ _).symm

/-- Taking away the bits of a mask clears them. -/
theorem sub_and_mask (a m : Word) : a - (a &&& m) = a &&& ~~~m := by
  have hdisjoint : (a &&& ~~~m) &&& (a &&& m) = 0#32 := by
    ext i
    cases hm : m[i] <;> simp [hm]
  rw [BitVec.sub_eq_iff_eq_add, BitVec.add_eq_or_of_and_eq_zero _ _ hdisjoint]
  ext i
  cases hm : m[i] <;> simp [hm]

/-- Rounding down to a power of two is a mask. -/
theorem alignDown_one_shiftLeft (a : Word) {k : Nat} (hk : k < 32) :
    alignDown a (1#32 <<< k) = a &&& ~~~((1#32 <<< k) - 1#32) := by
  rw [alignDown, umod_one_shiftLeft a hk, sub_and_mask]

/-! ## Rounding up (rules R57 and R58) -/

/-- Rounding up over the numbers, the sum wrapped to 32 bits. -/
theorem alignUp_eq_ofNat (a b : Word) : alignUp a b = BitVec.ofNat 32
    ((a.toNat + b.toNat - 1) % 2 ^ 32 - (a.toNat + b.toNat - 1) % 2 ^ 32 % b.toNat) := by
  rw [alignUp, alignDown_eq_ofNat, BitVec.toNat_ofNat, alignUpSum]

/-- The wrapped sum in 32-bit arithmetic. -/
theorem ofNat_alignUpSum (a : Word) (hb : b ≠ 0#32) : BitVec.ofNat 32 (alignUpSum a b) = a + b - 1#32 := by
  have hpos := toNat_pos_of_ne_zero hb
  apply BitVec.eq_of_toNat_eq
  rw [alignUpSum, BitVec.toNat_ofNat, BitVec.toNat_sub, BitVec.toNat_add, BitVec.toNat_one (by decide)]
  omega

/-- The overflow test of rule R57 without the wide sum. -/
theorem alignUpSum_overflow_iff (a : Word) (hb : b ≠ 0#32) :
    2 ^ 32 ≤ alignUpSum a b ↔ 0xFFFFFFFF#32 - (b - 1#32) < a := by
  have hpos := toNat_pos_of_ne_zero hb
  rw [alignUpSum]
  bv_omega

section
variable (hb : b ≠ 0#32) (hfit : alignUpSum a b < 2 ^ 32)

include hfit in
theorem toNat_ofNat_alignUpSum : (BitVec.ofNat 32 (alignUpSum a b)).toNat = a.toNat + b.toNat - 1 := by
  rw [BitVec.toNat_ofNat, Nat.mod_eq_of_lt hfit, alignUpSum]

theorem dvd_toNat_alignUp (a b : Word) : b.toNat ∣ (alignUp a b).toNat := dvd_toNat_alignDown _ b

include hfit in
/-- Rounding up adds less than one alignment. -/
theorem toNat_alignUp_le : (alignUp a b).toNat ≤ a.toNat + b.toNat - 1 := by
  rw [← toNat_ofNat_alignUpSum hfit]
  exact toNat_alignDown_le _ b

include hb hfit

theorem le_toNat_alignUp : a.toNat ≤ (alignUp a b).toNat := by
  have hpos := toNat_pos_of_ne_zero hb
  have hsum : a.toNat + b.toNat - 1 < (alignUp a b).toNat + b.toNat := by
    rw [← toNat_ofNat_alignUpSum hfit]
    exact toNat_lt_alignDown_add _ hb
  omega

/-- No smaller multiple is not below the operand. -/
theorem toNat_alignUp_le_of_dvd {m : Nat} (hm : b.toNat ∣ m) (ham : a.toNat ≤ m) : (alignUp a b).toNat ≤ m := by
  have hpos := toNat_pos_of_ne_zero hb
  have hup := toNat_alignUp_le hfit
  exact Nat.le_of_lt_add_of_dvd (by omega) (dvd_toNat_alignUp a b) hm

theorem alignUp_of_dvd (hdvd : b.toNat ∣ a.toNat) : alignUp a b = a :=
  BitVec.eq_of_toNat_eq
    (Nat.le_antisymm (toNat_alignUp_le_of_dvd hb hfit hdvd (Nat.le_refl _)) (le_toNat_alignUp hb hfit))

/-- The second inequality of rule R58, over the numbers and in 32-bit arithmetic. -/
theorem alignUp_sub_lt (ha : a ≠ 0#32) :
    (alignUp a b).toNat - b.toNat < a.toNat ∧ alignUp a b - b < a := by
  have hapos := toNat_pos_of_ne_zero ha
  have hbpos := toNat_pos_of_ne_zero hb
  have hup := toNat_alignUp_le hfit
  have hnat : (alignUp a b).toNat - b.toNat < a.toNat := by omega
  have hle : b ≤ alignUp a b :=
    Nat.le_of_dvd (Nat.lt_of_lt_of_le hapos (le_toNat_alignUp hb hfit)) (dvd_toNat_alignUp a b)
  exact ⟨hnat, by rwa [BitVec.lt_def, BitVec.toNat_sub_of_le hle]⟩

end

theorem alignUpSum_zero_lt (b : Word) : alignUpSum 0#32 b < 2 ^ 32 := by
  have hlt := b.isLt
  rw [alignUpSum, BitVec.toNat_zero]
  omega

theorem alignUpSum_one_lt (a : Word) : alignUpSum a 1#32 < 2 ^ 32 := a.isLt

/-- Rounding up to a power of two is a mask of the wrapped sum. -/
theorem alignUp_one_shiftLeft (a : Word) {k : Nat} (hk : k < 32) :
    alignUp a (1#32 <<< k) = (a + (1#32 <<< k) - 1#32) &&& ~~~((1#32 <<< k) - 1#32) := by
  rw [alignUp, ofNat_alignUpSum a (one_shiftLeft_ne_zero hk), alignDown_one_shiftLeft _ hk]

end

/-! ## The exponent of NPW2 (rules R59 and R60) -/

/-- The low n bits without their leading zeros fit in k bits exactly where their value is below 2^k. -/
theorem sub_leadingZeros_le_iff (v : Word) (n k : Nat) : n - leadingZeros v n ≤ k ↔ v.toNat % 2 ^ n < 2 ^ k := by
  induction n with
  | zero =>
    rw [Nat.zero_sub, Nat.pow_zero, Nat.mod_one]
    exact iff_of_true (Nat.zero_le k) (Nat.two_pow_pos k)
  | succ n ih =>
    have hdigit : v.getLsbD n = decide (v.toNat / 2 ^ n % 2 = 1) := Nat.testBit_eq_decide_div_mod_eq
    rw [leadingZeros, Nat.mod_pow_succ]
    split
    next hset =>
      have hone : v.toNat / 2 ^ n % 2 = 1 := by simpa [hdigit] using hset
      rw [hone, Nat.mul_one, Nat.sub_zero]
      constructor
      · intro hk
        have hpow := Nat.pow_le_pow_right (n := 2) (by decide) hk
        have hlow := Nat.mod_lt v.toNat (Nat.two_pow_pos n)
        omega
      · intro hlt
        exact (Nat.pow_lt_pow_iff_right (a := 2) (by decide)).mp (Nat.lt_of_le_of_lt (Nat.le_add_left _ _) hlt)
    next hclear =>
      have hzero : v.toNat / 2 ^ n % 2 = 0 := by
        have hne : v.toNat / 2 ^ n % 2 ≠ 1 := by simpa [hdigit] using hclear
        omega
      rw [hzero, Nat.mul_zero, Nat.add_zero, Nat.add_sub_add_right]
      exact ih

/-- The significant bits of a word are at most k exactly where it is below 2^k. -/
theorem sub_clz32_le_iff (v : Word) (k : Nat) : 32 - clz32 v ≤ k ↔ v.toNat < 2 ^ k := by
  rw [clz32, sub_leadingZeros_le_iff, Nat.mod_eq_of_lt v.isLt]

/-- The exponent NPW2 shifts 1 by (rule R59). -/
def npw2Exponent (a : Word) : Nat := 32 - clz32 (a - 1#32)

theorem nextPow2_eq_ofNat (a : Word) : nextPow2 a = BitVec.ofNat 32 (2 ^ npw2Exponent a) :=
  BitVec.eq_of_toNat_eq (BitVec.toNat_twoPow 32 (npw2Exponent a))

section
variable {a : Word} (ha : a ≠ 0#32)
include ha

/-- The exponent is the least one whose power is not below the operand. -/
theorem npw2Exponent_le_iff (k : Nat) : npw2Exponent a ≤ k ↔ a.toNat ≤ 2 ^ k := by
  have hpos := toNat_pos_of_ne_zero ha
  have hone : 1#32 ≤ a := hpos
  rw [npw2Exponent, sub_clz32_le_iff, BitVec.toNat_sub_of_le hone, BitVec.toNat_one (by decide)]
  omega

theorem lt_npw2Exponent_iff (k : Nat) : k < npw2Exponent a ↔ 2 ^ k < a.toNat := by
  rw [← Nat.not_le, npw2Exponent_le_iff ha, Nat.not_le]

theorem npw2Exponent_le_31 (hr : a.toNat ≤ 0x80000000) : npw2Exponent a ≤ 31 := (npw2Exponent_le_iff ha 31).mpr hr

theorem toNat_nextPow2 (hr : a.toNat ≤ 0x80000000) : (nextPow2 a).toNat = 2 ^ npw2Exponent a := by
  have hexp := npw2Exponent_le_31 ha hr
  rw [nextPow2_eq_ofNat, BitVec.toNat_ofNat]
  exact Nat.mod_eq_of_lt (Nat.pow_lt_pow_right (by decide) (by omega))

/-- On the valid range clz32 never answers 0, so the shift stays below 32. -/
theorem clz32_pred_pos (hr : a.toNat ≤ 0x80000000) : 1 ≤ clz32 (a - 1#32) := by
  have hexp := npw2Exponent_le_31 ha hr
  rw [npw2Exponent] at hexp
  omega

/-- The half of the result is below the operand. -/
theorem nextPow2_half_lt (hr : a.toNat ≤ 0x80000000) (h : 1 < a.toNat) : (nextPow2 a).toNat / 2 < a.toNat := by
  have hpos : 0 < npw2Exponent a := (lt_npw2Exponent_iff ha 0).mpr h
  obtain ⟨j, hj⟩ := Nat.exists_eq_add_one_of_ne_zero (Nat.ne_of_gt hpos)
  rw [toNat_nextPow2 ha hr, hj, Nat.pow_succ, Nat.mul_div_cancel _ (by decide), ← lt_npw2Exponent_iff ha, hj]
  exact Nat.lt_succ_self j

/-- Above one power and not above the next, the result is the next. -/
theorem nextPow2_of_between {k : Nat} (hlo : 2 ^ k < a.toNat) (hhi : a.toNat ≤ 2 ^ (k + 1)) :
    nextPow2 a = BitVec.ofNat 32 (2 ^ (k + 1)) := by
  have hexp : npw2Exponent a = k + 1 :=
    Nat.le_antisymm ((npw2Exponent_le_iff ha _).mpr hhi) ((lt_npw2Exponent_iff ha k).mpr hlo)
  rw [nextPow2_eq_ofNat, hexp]

end

/-- A power of two is its own next power. -/
theorem nextPow2_two_pow {k : Nat} (hk : k < 32) : nextPow2 (BitVec.ofNat 32 (2 ^ k)) = BitVec.ofNat 32 (2 ^ k) := by
  cases k with
  | zero => decide
  | succ k =>
    have hval : (BitVec.ofNat 32 (2 ^ (k + 1))).toNat = 2 ^ (k + 1) :=
      Nat.mod_eq_of_lt (Nat.pow_lt_pow_right (by decide) hk)
    have hpos := Nat.two_pow_pos (k + 1)
    refine nextPow2_of_between (fun h => ?_) ?_ (Nat.le_of_eq hval)
    · rw [h, BitVec.toNat_zero] at hval
      omega
    · rw [hval]
      exact Nat.pow_lt_pow_right (by decide) (Nat.lt_succ_self k)

/-- One above a power of two the next power is its double. -/
theorem nextPow2_two_pow_add_one {k : Nat} (hk : k ≤ 30) :
    nextPow2 (BitVec.ofNat 32 (2 ^ k + 1)) = BitVec.ofNat 32 (2 ^ (k + 1)) := by
  have hpos := Nat.two_pow_pos k
  have hbound : 2 ^ k ≤ 2 ^ 30 := Nat.pow_le_pow_right (by decide) hk
  have hval : (BitVec.ofNat 32 (2 ^ k + 1)).toNat = 2 ^ k + 1 := Nat.mod_eq_of_lt (by omega)
  refine nextPow2_of_between (fun h => ?_) ?_ ?_
  · rw [h, BitVec.toNat_zero] at hval
    omega
  · omega
  · rw [hval, Nat.pow_succ]
    omega

/-! ## The commands that fault with a free R (00_scope.md rule R7, 60_exceptions.md rule R88) -/

theorem State.raise_eq_faulted (s : State) (c : Cause) : s.raise c = s.faulted c := s.raise_eq c

theorem exec_alignd_zero {s : State} (h : s.b = 0#32) : exec .alignd s = .next (s.drawR.faulted .alignZero) := by
  rw [exec, execAlignd_zero s h, State.raise_eq_faulted]

theorem exec_alignu_zero {s : State} (h : s.b = 0#32) : exec .alignu s = .next (s.drawR.faulted .alignZero) := by
  rw [exec, execAlignu_zero s h, State.raise_eq_faulted]

theorem exec_alignu_overflow {s : State} (h : s.b ≠ 0#32) (ho : 2 ^ 32 ≤ s.a.toNat + s.b.toNat - 1) :
    exec .alignu s = .next ((s.setR (alignUp s.a s.b)).faulted .alignOvf) := by
  rw [exec, execAlignu_overflow s h ho, State.raise_eq_faulted]

theorem exec_npw2_range {s : State} (h : s.a = 0#32 ∨ 0x80000000 < s.a.toNat) :
    exec .npw2 s = .next (s.drawR.faulted .npw2Range) := by
  rw [exec, execNpw2_range s h, State.raise_eq_faulted]

/-! ## The statements -/

/-- Settles O35: rounding down over the numbers, and the mask for a power of two. -/
theorem aligndRoundsDownToAMultiple : Obligations.AligndRoundsDownToAMultiple := by
  refine ⟨decode_encode .alignd, fun s h => exec_alignd_zero h, fun s h => ?_, fun a b hb => ?_,
    fun a => ⟨alignDown_of_dvd (Nat.one_dvd _), alignDown_top a⟩, fun a k hk => alignDown_one_shiftLeft a hk,
    by decide, by decide⟩
  · rw [← alignDown_eq_ofNat]
    exact execAlignd_nonzero s h
  · exact ⟨toNat_alignDown_le a b, dvd_toNat_alignDown a b, fun m => le_toNat_alignDown hb, alignDown_of_lt,
      alignDown_of_dvd⟩

/-- Settles O36: the remainder is below the alignment, and the difference does not wrap. -/
theorem aligndResultBracketsItsOperand : Obligations.AligndResultBracketsItsOperand := by
  intro a b hb
  have hle : alignDown a b ≤ a := toNat_alignDown_le a b
  have hlt := toNat_lt_alignDown_add a hb
  refine ⟨hle, hlt, Nat.mod_eq_zero_of_dvd (dvd_toNat_alignDown a b), ?_⟩
  rw [BitVec.lt_def, BitVec.toNat_sub_of_le hle]
  exact Nat.sub_lt_left_of_lt_add hle hlt

/-- Settles O37: rounding down of the wrapped sum, the three cases of the command apart. -/
theorem alignuRoundsUpOrReportsOverflow : Obligations.AlignuRoundsUpOrReportsOverflow := by
  refine ⟨decode_encode .alignu, fun s h => exec_alignu_zero h, fun s hb hfit => ?_, fun s hb ho => ?_,
    fun a b hb => alignUpSum_overflow_iff a hb, fun b hb => alignUp_of_dvd hb (alignUpSum_zero_lt b) (Nat.dvd_zero _),
    fun a b hb hfit => alignUp_of_dvd hb hfit,
    fun a => ⟨alignUp_of_dvd (by decide) (alignUpSum_one_lt a) (Nat.one_dvd _), alignUpSum_one_lt a⟩,
    fun a k hk _ => alignUp_one_shiftLeft a hk,
    by decide, by decide, by decide, by decide, by decide, by decide⟩
  · have hr := alignUp_eq_ofNat s.a s.b
    rw [Nat.mod_eq_of_lt hfit] at hr
    rw [← hr]
    exact execAlignu_fits s hb hfit
  · rw [← alignUp_eq_ofNat]
    exact exec_alignu_overflow hb ho

/-- Settles O38: the result lies less than one alignment above the operand, and multiples are one alignment apart. -/
theorem alignuResultIsTheSmallestMultipleAbove : Obligations.AlignuResultIsTheSmallestMultipleAbove :=
  fun a b hb hfit => ⟨le_toNat_alignUp hb hfit, Nat.mod_eq_zero_of_dvd (dvd_toNat_alignUp a b),
    fun _ => toNat_alignUp_le_of_dvd hb hfit, alignUp_sub_lt hb hfit⟩

/-- Settles O39: the exponent is the least one whose power is not below the operand. -/
theorem npw2IsTheNextPowerOfTwo : Obligations.Npw2IsTheNextPowerOfTwo := by
  refine ⟨decode_encode .npw2, fun s h => exec_npw2_range h, fun s ha hr => ?_,
    fun a ha hr => ⟨clz32_pred_pos ha hr, leadingZeros_le _ 32⟩, fun k => nextPow2_two_pow,
    fun k _ => nextPow2_two_pow_add_one, by decide, by decide, by decide, by decide⟩
  have hvalid : ¬(s.a = 0#32 ∨ 0x80000000 < s.a.toNat) := by simp [ha, hr]
  rw [← npw2Exponent, ← nextPow2_eq_ofNat]
  exact execNpw2_valid s hvalid

/-- Settles O40: the result is the power of the least exponent that reaches the operand. -/
theorem npw2ResultIsThePowerItClaims : Obligations.Npw2ResultIsThePowerItClaims := by
  intro a ha hr
  have hpow := toNat_nextPow2 ha hr
  refine ⟨⟨npw2Exponent a, Nat.lt_succ_of_le (npw2Exponent_le_31 ha hr), hpow⟩, ?_, nextPow2_half_lt ha hr,
    fun k hk => ?_⟩
  · rw [hpow]
    exact (npw2Exponent_le_iff ha _).mp (Nat.le_refl _)
  · rw [hpow]
    exact Nat.pow_le_pow_right (by decide) ((npw2Exponent_le_iff ha k).mpr hk)

end Sys2Proof.Machine
end

section
/-! The statements of the family 42_bitcount.md. CLZ and CTZ are read off the lowest and the highest set bit of a word,
`BitSpan`; POPC counts bit positions, and for the relations of rule R65 it is bounded from both sides by that span. -/

namespace Sys2Proof.Machine

/-! ## Population count (rule R64) -/

/-- The recursion of the model counts bit positions. -/
theorem onesBelow_eq_countP (v : Word) (n : Nat) : onesBelow v n = (List.range n).countP fun j => v.getLsbD j := by
  induction n with
  | zero => rfl
  | succ n ih => rw [onesBelow, ih, List.range_succ, List.countP_append, List.countP_singleton]

theorem popcount32_eq_countP (v : Word) : popcount32 v = (List.range 32).countP fun j => v.getLsbD j :=
  onesBelow_eq_countP v 32

theorem onesBelow_succ_of_set {v : Word} {n : Nat} (h : v.getLsbD n = true) :
    onesBelow v (n + 1) = onesBelow v n + 1 := by
  rw [onesBelow, if_pos h]

theorem onesBelow_succ_of_clear {v : Word} {n : Nat} (h : v.getLsbD n = false) :
    onesBelow v (n + 1) = onesBelow v n := by
  rw [onesBelow, if_neg (Bool.eq_false_iff.mp h), Nat.add_zero]

/-- Every bit is set in a value or in its complement, and in one of them only. -/
theorem onesBelow_add_onesBelow_not (v : Word) {n : Nat} (hn : n ≤ 32) : onesBelow v n + onesBelow (~~~v) n = n := by
  induction n with
  | zero => rfl
  | succ n ih =>
    have hsum := ih (Nat.le_of_succ_le hn)
    have hnot : (~~~v).getLsbD n = !v.getLsbD n := by simp only [BitVec.getLsbD_not, Nat.lt_of_succ_le hn,
      decide_true, Bool.true_and]
    cases hbit : v.getLsbD n with
    | false =>
      rw [hbit] at hnot
      rw [onesBelow_succ_of_clear hbit, onesBelow_succ_of_set hnot]
      omega
    | true =>
      rw [hbit] at hnot
      rw [onesBelow_succ_of_set hbit, onesBelow_succ_of_clear hnot]
      omega

theorem onesBelow_mono (v : Word) {m n : Nat} (hmn : m ≤ n) : onesBelow v m ≤ onesBelow v n := by
  induction hmn with
  | refl => exact Nat.le_refl _
  | step _ ih => exact Nat.le_trans ih (Nat.le_add_right _ _)

/-- A set bit makes the count past it greater than the count below it. -/
theorem onesBelow_lt_of_set {v : Word} {k n : Nat} (hkn : k < n) (hk : v.getLsbD k = true) :
    onesBelow v k < onesBelow v n :=
  calc onesBelow v k < onesBelow v k + 1 := Nat.lt_succ_self _
    _ = onesBelow v (k + 1) := (onesBelow_succ_of_set hk).symm
    _ ≤ onesBelow v n := onesBelow_mono v hkn

/-- Clear bits from m upward do not count. -/
theorem onesBelow_of_clear_above {v : Word} {m n : Nat} (hmn : m ≤ n)
    (h : ∀ j, m ≤ j → j < n → v.getLsbD j = false) : onesBelow v n = onesBelow v m := by
  induction hmn with
  | refl => rfl
  | @step n hmn ih =>
    rw [onesBelow_succ_of_clear (h n hmn (Nat.lt_succ_self n))]
    exact ih fun j hmj hjn => h j hmj (Nat.lt_succ_of_lt hjn)

/-- Clear bits below l do not count. -/
theorem onesBelow_le_sub {v : Word} {l : Nat} (h : ∀ j < l, v.getLsbD j = false) (n : Nat) :
    onesBelow v n ≤ n - l := by
  induction n with
  | zero => exact Nat.zero_le _
  | succ n ih =>
    cases hbit : v.getLsbD n with
    | false =>
      rw [onesBelow_succ_of_clear hbit]
      omega
    | true =>
      have hln : l ≤ n := Nat.le_of_not_lt fun hnl => Bool.false_ne_true ((h n hnl).symm.trans hbit)
      rw [onesBelow_succ_of_set hbit]
      omega

/-! ## Leading and trailing zeros (rules R62 and R63) -/

/-- With k the highest set bit, CLZ counts 31 - k. -/
theorem clz32_of_highest {v : Word} {k : Nat} (hk : k < 32) (hb : v.getLsbD k = true)
    (h : ∀ j, k < j → j < 32 → v.getLsbD j = false) : clz32 v = 31 - k := leadingZeros_top v 32 k hk hb h

/-- With k the lowest set bit, CTZ counts k. -/
theorem ctz32_of_lowest {v : Word} {k : Nat} (hk : k < 32) (hb : v.getLsbD k = true)
    (h : ∀ j < k, v.getLsbD j = false) : ctz32 v = k :=
  trailingZeros_low v 0 k 32 hk (by rwa [Nat.zero_add]) fun j hj => by rw [Nat.zero_add, h j hj]

theorem clz32_le (v : Word) : clz32 v ≤ 32 := leadingZeros_le v 32

theorem clz32_eq_32_iff (v : Word) : clz32 v = 32 ↔ v = 0#32 := by
  have hle := clz32_le v
  have hbits := sub_clz32_le_iff v 0
  rw [← BitVec.toNat_inj, BitVec.toNat_zero]
  omega

/-- Bit l is the lowest set bit of the word and bit h the highest. -/
structure BitSpan (v : Word) (l h : Nat) : Prop where
  low_set : v.getLsbD l = true
  low_least : ∀ j < l, v.getLsbD j = false
  high_set : v.getLsbD h = true
  high_greatest : ∀ j, h < j → j < 32 → v.getLsbD j = false

/-- A word that is not 0 has a lowest and a highest set bit: those where the library's counts stop. -/
theorem exists_bitSpan {v : Word} (hv : v ≠ 0#32) : ∃ l h, BitSpan v l h := by
  refine ⟨v.ctz.toNat, 31 - v.clz.toNat, BitVec.getLsbD_true_ctz_of_ne_zero hv,
    fun j => BitVec.getLsbD_false_of_lt_ctz, BitVec.getLsbD_true_clz_of_ne_zero (by decide) hv, fun j hj _ => ?_⟩
  have hpow : 2 ^ (32 - v.clz.toNat) ≤ 2 ^ j := Nat.pow_le_pow_right (by decide) (by omega)
  exact Nat.testBit_lt_two_pow (Nat.lt_of_lt_of_le BitVec.toNat_lt_two_pow_sub_clz hpow)

theorem getLsbD_one_shiftLeft {k : Nat} (hk : k < 32) (j : Nat) : (1#32 <<< k).getLsbD j = decide (k = j) := by
  rw [← BitVec.twoPow_eq, BitVec.getLsbD_twoPow, decide_eq_true hk, Bool.true_and]

theorem bitSpan_one_shiftLeft {k : Nat} (hk : k < 32) : BitSpan (1#32 <<< k) k k := by
  have hset : (1#32 <<< k).getLsbD k = true := by rw [getLsbD_one_shiftLeft hk, decide_eq_true rfl]
  have hclear (j : Nat) (hj : k ≠ j) : (1#32 <<< k).getLsbD j = false := by
    rw [getLsbD_one_shiftLeft hk, decide_eq_false hj]
  exact ⟨hset, fun j hj => hclear j (Nat.ne_of_gt hj), hset, fun j hj _ => hclear j (Nat.ne_of_lt hj)⟩

namespace BitSpan

variable {v : Word} {l h : Nat} (hs : BitSpan v l h)
include hs

theorem low_lt : l < 32 := BitVec.lt_of_getLsbD hs.low_set

theorem high_lt : h < 32 := BitVec.lt_of_getLsbD hs.high_set

theorem low_le_high : l ≤ h :=
  Nat.le_of_not_lt fun hlt => Bool.false_ne_true ((hs.low_least h hlt).symm.trans hs.high_set)

theorem clz32_eq : clz32 v = 31 - h := clz32_of_highest hs.high_lt hs.high_set hs.high_greatest

theorem ctz32_eq : ctz32 v = l := ctz32_of_lowest hs.low_lt hs.low_set hs.low_least

/-! ### The relations among the counts (rule R65) -/

/-- The set bits lie from the lowest to the highest. -/
theorem popcount32_le : popcount32 v ≤ h + 1 - l := by
  rw [popcount32, onesBelow_of_clear_above hs.high_lt hs.high_greatest]
  exact onesBelow_le_sub hs.low_least (h + 1)

theorem popcount32_pos : 0 < popcount32 v := Nat.zero_lt_of_lt (onesBelow_lt_of_set hs.high_lt hs.high_set)

/-- Two ends apart are two set bits. -/
theorem one_lt_popcount32 (hlt : l < h) : 1 < popcount32 v := by
  have hlow := onesBelow_lt_of_set hlt hs.low_set
  have hhigh : onesBelow v h < popcount32 v := onesBelow_lt_of_set hs.high_lt hs.high_set
  omega

theorem popcount32_eq_one_iff : popcount32 v = 1 ↔ l = h := by
  have hle := hs.low_le_high
  have hpos := hs.popcount32_pos
  have hspan := hs.popcount32_le
  have htwo := hs.one_lt_popcount32
  omega

/-- One end for both is a power of two. -/
theorem low_eq_high_iff : l = h ↔ ∃ k < 32, v = 1#32 <<< k := by
  constructor
  · rintro rfl
    refine ⟨l, hs.low_lt, BitVec.eq_of_getLsbD_eq fun j hj => ?_⟩
    rw [getLsbD_one_shiftLeft hs.low_lt]
    obtain hjl | rfl | hlj := Nat.lt_trichotomy j l
    · rw [hs.low_least j hjl, decide_eq_false (Nat.ne_of_gt hjl)]
    · rw [hs.low_set, decide_eq_true rfl]
    · rw [hs.high_greatest j hlj hj, decide_eq_false (Nat.ne_of_lt hlj)]
  · rintro ⟨k, hk, rfl⟩
    have hpow := bitSpan_one_shiftLeft hk
    exact hs.popcount32_eq_one_iff.mp (hpow.popcount32_eq_one_iff.mpr rfl)

theorem clz32_add_ctz32 : clz32 v + ctz32 v + (h - l) = 31 := by
  have hle := hs.low_le_high
  have hlt := hs.high_lt
  rw [hs.clz32_eq, hs.ctz32_eq]
  omega

theorem clz32_add_ctz32_le : clz32 v + ctz32 v + 1 ≤ 32 := by
  have hsum := hs.clz32_add_ctz32
  omega

theorem clz32_add_ctz32_eq_iff : clz32 v + ctz32 v + 1 = 32 ↔ l = h := by
  have hsum := hs.clz32_add_ctz32
  have hle := hs.low_le_high
  omega

theorem popcount32_le_sub : popcount32 v ≤ 32 - clz32 v - ctz32 v := by
  have hspan := hs.popcount32_le
  have hsum := hs.clz32_add_ctz32
  omega

end BitSpan

/-! ## The statements -/

theorem exec_ctz_zero {s : State} (h : s.a = 0#32) : exec .ctz s = .next (s.drawR.faulted .ctzZero) := by
  rw [exec, execCtz_zero s h, State.raise_eq_faulted]

theorem exec_ctz_of_lowest {s : State} {k : Nat} (hk : k < 32) (hb : s.a.getLsbD k = true)
    (h : ∀ j < k, s.a.getLsbD j = false) : exec .ctz s = .next (s.setR (BitVec.ofNat 32 k)) := by
  have ha : s.a ≠ 0#32 := by
    intro h0
    rw [h0, BitVec.getLsbD_zero] at hb
    exact Bool.false_ne_true hb
  rw [exec, execCtz_nonzero s ha, ctz32_of_lowest hk hb h]

/-- Settles O41: the count from bit 31 downward stops at the highest set bit. -/
theorem clzCountsDownToTheHighestSetBit : Obligations.ClzCountsDownToTheHighestSetBit :=
  ⟨decode_encode .clz, fun _ => rfl, clz32_le, (clz32_eq_32_iff _).mpr rfl, fun _ _ => clz32_of_highest,
    by decide, by decide, by decide, by decide, by decide⟩

/-- Settles O42: the count from bit 0 upward stops at the lowest set bit. -/
theorem ctzIsTheLowestSetBit : Obligations.CtzIsTheLowestSetBit := by
  refine ⟨decode_encode .ctz, fun _ => exec_ctz_zero, fun _ _ => exec_ctz_of_lowest, fun a ha => ?_,
    by decide, by decide, by decide⟩
  obtain ⟨l, h, hs⟩ := exists_bitSpan ha
  exact ⟨l, hs.low_lt, hs.low_set, hs.low_least, hs.ctz32_eq⟩

/-- Settles O43: the recursion counts bit positions, and each is set in a value or in its complement. -/
theorem popcCountsTheSetBits : Obligations.PopcCountsTheSetBits := by
  refine ⟨decode_encode .popc, fun s => ?_, popcount32_eq_countP,
    fun a => ⟨onesBelow_le a 32, onesBelow_add_onesBelow_not a (Nat.le_refl 32)⟩,
    fun _ hk => (bitSpan_one_shiftLeft hk).popcount32_eq_one_iff.mpr rfl,
    by decide, by decide, by decide, by decide, by decide⟩
  rw [← popcount32_eq_countP]
  rfl

/-- Settles O44: the two zero counts frame the span of the set bits, which is one bit long exactly at a power of two. -/
theorem bitCountsRelateToEachOther : Obligations.BitCountsRelateToEachOther := by
  refine ⟨fun a ha => ?_, clz32_eq_32_iff⟩
  obtain ⟨l, h, hs⟩ := exists_bitSpan ha
  exact ⟨hs.clz32_add_ctz32_le, hs.clz32_add_ctz32_eq_iff.trans hs.low_eq_high_iff,
    hs.popcount32_eq_one_iff.trans hs.low_eq_high_iff, hs.popcount32_le_sub⟩

end Sys2Proof.Machine
end

section
/-! The statements of the family 43_endian.md. A word is its four bytes side by side: the byte strings of rule R66 put
them in one of the two orders, and `bswap32` turns one order into the other. -/

namespace Sys2Proof.Machine

/-! ## A word and its four bytes (00_scope.md rule R6) -/

/-- A word is its four bytes side by side, the most significant first. -/
theorem bytes_append (v : Word) :
    ((v.extractLsb' 24 8 ++ v.extractLsb' 16 8) ++ v.extractLsb' 8 8) ++ v.extractLsb' 0 8 = v := by
  rw [BitVec.extractLsb'_append_extractLsb'_eq_extractLsb' (rfl : 24 = 16 + 8),
    BitVec.extractLsb'_append_extractLsb'_eq_extractLsb' (rfl : 16 = 8 + 8),
    BitVec.extractLsb'_append_extractLsb'_eq_extractLsb' (rfl : 8 = 0 + 8)]
  exact BitVec.extractLsb'_eq_self

theorem bswap32_append (b3 b2 b1 b0 : Byte) : bswap32 (((b3 ++ b2) ++ b1) ++ b0) = ((b0 ++ b1) ++ b2) ++ b3 := by
  have h0 : (((b3 ++ b2) ++ b1) ++ b0).extractLsb' 0 8 = b0 := BitVec.extractLsb'_append_eq_right
  have h1 : (((b3 ++ b2) ++ b1) ++ b0).extractLsb' 8 8 = b1 := by
    rw [BitVec.extractLsb'_append_eq_of_le (by decide), BitVec.extractLsb'_append_eq_right]
  have h2 : (((b3 ++ b2) ++ b1) ++ b0).extractLsb' 16 8 = b2 := by
    rw [BitVec.extractLsb'_append_eq_of_le (by decide), BitVec.extractLsb'_append_eq_of_le (by decide),
      BitVec.extractLsb'_append_eq_right]
  have h3 : (((b3 ++ b2) ++ b1) ++ b0).extractLsb' 24 8 = b3 := by
    rw [BitVec.extractLsb'_append_eq_of_le (by decide), BitVec.extractLsb'_append_eq_of_le (by decide),
      BitVec.extractLsb'_append_eq_left]
  rw [bswap32, h0, h1, h2, h3]

/-- The byte swap undoes itself (rule R71). -/
@[simp] theorem bswap32_bswap32 (v : Word) : bswap32 (bswap32 v) = v :=
  (bswap32_append _ _ _ _).trans (bytes_append v)

/-- The byte swap as the four shift and mask operations of rule R69: in each byte of the result one of the four stands,
and the masks clear the other three. -/
theorem bswap32_eq_shift_mask (v : Word) :
    bswap32 v = ((v &&& 0x000000FF#32) <<< 24) ||| ((v &&& 0x0000FF00#32) <<< 8)
      ||| ((v >>> 8) &&& 0x0000FF00#32) ||| ((v >>> 24) &&& 0x000000FF#32) := by
  have hmask0 : 0x000000FF#32 = (BitVec.allOnes 8).setWidth 32 := rfl
  have hmask1 : 0x0000FF00#32 = (BitVec.allOnes 8).setWidth 32 <<< 8 := rfl
  rw [hmask0, hmask1]
  apply BitVec.eq_of_getLsbD_eq
  intro i hi
  simp only [bswap32, BitVec.getLsbD_append, BitVec.getLsbD_extractLsb', BitVec.getLsbD_or, BitVec.getLsbD_and,
    BitVec.getLsbD_shiftLeft, BitVec.getLsbD_ushiftRight, BitVec.getLsbD_setWidth, BitVec.getLsbD_allOnes]
  obtain h0 | h1 | h2 | h3 : i < 8 ∨ 8 ≤ i ∧ i < 16 ∨ 16 ≤ i ∧ i < 24 ∨ 24 ≤ i := by omega
  all_goals grind

/-! ## The byte strings (rule R66) -/

theorem decBytes_encBytes (o : ByteOrder) (v : Word) : decBytes o (encBytes o v) = v := by
  cases o with
  | little | big => exact bytes_append v

theorem decBytes_big_encBytes_little (v : Word) : decBytes .big (encBytes .little v) = bswap32 v := rfl

theorem decBytes_little_encBytes_big (v : Word) : decBytes .little (encBytes .big v) = bswap32 v := rfl

/-! ## The commands -/

/-- The little-endian pair copies A to R (rules R67 and R68). -/
theorem exec_littleEndian {i : Instr} (hi : i ∈ [Instr.fromle32, .tole32]) (s : State) :
    exec i s = .next (s.setR s.a) := by
  cases i with
  | fromle32 | tole32 => rfl
  | _ => simp at hi

/-- The big-endian pair puts the byte swap of A into R (rules R69 and R70). -/
theorem exec_bigEndian {i : Instr} (hi : i ∈ [Instr.frombe32, .tobe32]) (s : State) :
    exec i s = .next (s.setR (bswap32 s.a)) := by
  cases i with
  | frombe32 | tobe32 => rfl
  | _ => simp at hi

/-- Settles O45: the four operations spell the byte swap. -/
theorem endianCommandsCopyOrSwapBytes : Obligations.EndianCommandsCopyOrSwapBytes := by
  refine ⟨decode_encode .fromle32, decode_encode .tole32, decode_encode .frombe32, decode_encode .tobe32, fun s => ?_,
    by decide, by decide, by decide, by decide, by decide, by decide⟩
  rw [← bswap32_eq_shift_mask]
  exact ⟨exec_littleEndian (by decide) s, exec_littleEndian (by decide) s, exec_bigEndian (by decide) s,
    exec_bigEndian (by decide) s⟩

/-- Settles O46: between two strings of one order the value stays, between the two orders its bytes are swapped. -/
theorem endianCommandsMeetTheirContract : Obligations.EndianCommandsMeetTheirContract := by
  refine ⟨rfl, decBytes_encBytes, fun s => ?_⟩
  rw [Config.nativeOrder, decBytes_encBytes, decBytes_big_encBytes_little, decBytes_little_encBytes_big]
  exact ⟨exec_littleEndian (by decide) s, exec_littleEndian (by decide) s, exec_bigEndian (by decide) s,
    exec_bigEndian (by decide) s⟩

/-- Settles O47: a pair is two copies or two byte swaps. -/
theorem endianRoundTripsGiveTheValueBack : Obligations.EndianRoundTripsGiveTheValueBack := by
  intro s t u i j hpair ht hu
  have hkind : (i ∈ [Instr.fromle32, .tole32] ∧ j ∈ [Instr.fromle32, .tole32]) ∨
      (i ∈ [Instr.frombe32, .tobe32] ∧ j ∈ [Instr.frombe32, .tobe32]) := by
    simp only [List.mem_cons, Prod.mk.injEq, List.not_mem_nil, or_false] at hpair
    obtain ⟨rfl, rfl⟩ | ⟨rfl, rfl⟩ | ⟨rfl, rfl⟩ | ⟨rfl, rfl⟩ | ⟨rfl, rfl⟩ | ⟨rfl, rfl⟩ := hpair
    all_goals decide
  obtain ⟨hi, hj⟩ | ⟨hi, hj⟩ := hkind
  · cases (exec_littleEndian hi s).symm.trans ht
    cases (exec_littleEndian hj _).symm.trans hu
    rfl
  · cases (exec_bigEndian hi s).symm.trans ht
    cases (exec_bigEndian hj _).symm.trans hu
    exact bswap32_bswap32 s.a

end Sys2Proof.Machine
end

section
/-! The statements of the family 44_crc32.md: the CRC engine as a linear shift register, its table forms, and what CRC32
does over a buffer that answers and over one that is refused. -/

namespace Sys2Proof.Machine

/-! ## The steps of the loop are linear over exclusive-or (44_crc32.md rule R81) -/

theorem crcShift_xor (x y : Word) : crcShift (x ^^^ y) = crcShift x ^^^ crcShift y := by
  unfold crcShift
  rw [BitVec.getLsbD_xor, BitVec.ushiftRight_xor_distrib]
  generalize hp : Config.crcPolyReflected = p
  cases x.getLsbD 0 <;> cases y.getLsbD 0
  · rfl
  · simp [BitVec.xor_assoc]
  · simp [BitVec.xor_assoc, BitVec.xor_comm p]
  · have hcancel : (x >>> 1 ^^^ p) ^^^ (y >>> 1 ^^^ p) = x >>> 1 ^^^ y >>> 1 := by
      rw [BitVec.xor_comm (y >>> 1), BitVec.xor_assoc, ← BitVec.xor_assoc p, BitVec.xor_self, BitVec.zero_xor]
    simp [hcancel]

theorem crcShifts_xor (n : Nat) (x y : Word) : crcShifts n (x ^^^ y) = crcShifts n x ^^^ crcShifts n y := by
  induction n generalizing x y with
  | zero => rfl
  | succ n ih => rw [crcShifts, crcShift_xor, ih]; rfl

/-- The byte may be folded into the accumulator first. -/
theorem crcByte_eq_xor_zero (acc : Word) (byte : Byte) : crcByte acc byte = crcByte (acc ^^^ byte.setWidth 32) 0#8 := by
  simp [crcByte]

theorem crcByte_xor (x y : Word) (u v : Byte) : crcByte (x ^^^ y) (u ^^^ v) = crcByte x u ^^^ crcByte y v := by
  unfold crcByte
  rw [← crcShifts_xor, BitVec.setWidth_xor]
  congr 1
  ac_rfl

theorem crcUpdate_xor (x y : Word) (u v : List Byte) (h : u.length = v.length) :
    crcUpdate (x ^^^ y) (List.zipWith (· ^^^ ·) u v) = crcUpdate x u ^^^ crcUpdate y v := by
  induction u generalizing x y v with
  | nil =>
    cases v with
    | nil => rfl
    | cons _ _ => simp at h
  | cons a u ih =>
    cases v with
    | nil => simp at h
    | cons b v =>
      rw [List.zipWith_cons_cons, crcUpdate_cons, crcByte_xor]
      exact ih _ _ _ (by simpa using h)

@[simp] theorem crcByte_zero_zero : crcByte 0#32 0#8 = 0#32 := by decide

/-- Zero bytes keep a zero accumulator. -/
theorem crcUpdate_zero_of_forall_eq_zero {bytes : List Byte} (h : ∀ byte ∈ bytes, byte = 0#8) :
    crcUpdate 0#32 bytes = 0#32 := by
  induction bytes with
  | nil => rfl
  | cons byte bytes ih =>
    obtain ⟨rfl, hrest⟩ := List.forall_mem_cons.mp h
    rw [crcUpdate_cons, crcByte_zero_zero, ih hrest]

/-! ## No step loses information (rule R81) -/

/-- The polynomial's bit 31 is 1 and a shift's is 0, so a step yields 0 from 0 alone. -/
theorem eq_zero_of_crcShift_eq_zero {c : Word} (h : crcShift c = 0#32) : c = 0#32 := by
  unfold crcShift at h
  split at h
  next =>
    have hpoly : c >>> 1 = Config.crcPolyReflected := BitVec.xor_eq_zero_iff.mp h
    have htop : (c >>> 1).getLsbD 31 = false := by simp
    rw [hpoly] at htop
    exact absurd htop (by decide)
  next h0 =>
    refine BitVec.eq_of_getLsbD_eq fun i hi => ?_
    cases i with
    | zero => simpa using h0
    | succ i => simpa [Nat.add_comm] using congrArg (BitVec.getLsbD · i) h

theorem crcShift_injective : Function.Injective crcShift := fun x y h =>
  BitVec.xor_eq_zero_iff.mp (eq_zero_of_crcShift_eq_zero (by rw [crcShift_xor, h, BitVec.xor_self]))

theorem crcShifts_injective (n : Nat) : Function.Injective (crcShifts n) := by
  induction n with
  | zero => exact fun _ _ h => h
  | succ n ih => exact ih.comp crcShift_injective

theorem crcByte_left_injective (byte : Byte) : Function.Injective (crcByte · byte) := fun _ _ h =>
  (BitVec.xor_left_inj _).mp (crcShifts_injective 8 h)

/-- Every value with bit 31 clear is a shift, and the bit shifted out is free. -/
theorem exists_ushiftRight_one_eq {v : Word} (h : v.getLsbD 31 = false) (b : Bool) :
    ∃ c : Word, c.getLsbD 0 = b ∧ c >>> 1 = v := by
  refine ⟨(v <<< 1) ||| (BitVec.ofBool b).setWidth 32, by cases b <;> simp, BitVec.eq_of_getLsbD_eq fun i hi => ?_⟩
  have hbit : ((BitVec.ofBool b).setWidth 32 : Word).getLsbD (1 + i) = false := by
    rw [BitVec.getLsbD_setWidth, BitVec.getLsbD_of_ge _ _ (by omega), Bool.and_false]
  rw [BitVec.getLsbD_ushiftRight, BitVec.getLsbD_or, hbit, Bool.or_false, BitVec.getLsbD_shiftLeft]
  obtain rfl | hlt : i = 31 ∨ i < 31 := by omega
  · exact h.symm
  · simp only [show 1 + i < 32 by omega, show ¬1 + i < 1 by omega, Nat.add_sub_cancel_left, decide_true, decide_false,
      Bool.not_false, Bool.true_and]

/-- Bit 31 of a result tells whether the polynomial went in. -/
theorem exists_crcShift_eq (y : Word) : ∃ c, crcShift c = y := by
  cases htop : y.getLsbD 31 with
  | false =>
    obtain ⟨c, hbit, hc⟩ := exists_ushiftRight_one_eq htop false
    exact ⟨c, by rw [crcShift, hbit, if_neg Bool.false_ne_true, hc]⟩
  | true =>
    have hclear : (y ^^^ Config.crcPolyReflected).getLsbD 31 = false := by
      rw [BitVec.getLsbD_xor, htop]
      rfl
    obtain ⟨c, hbit, hc⟩ := exists_ushiftRight_one_eq hclear true
    exact ⟨c, by rw [crcShift, hbit, if_pos rfl, hc, BitVec.xor_assoc, BitVec.xor_self, BitVec.xor_zero]⟩

theorem exists_crcShifts_eq (n : Nat) (y : Word) : ∃ c, crcShifts n c = y := by
  induction n with
  | zero => exact ⟨y, rfl⟩
  | succ n ih =>
    obtain ⟨d, hd⟩ := ih
    obtain ⟨c, hc⟩ := exists_crcShift_eq d
    exact ⟨c, by rw [crcShifts, hc, hd]⟩

theorem exists_crcByte_eq (byte : Byte) (y : Word) : ∃ x, crcByte x byte = y := by
  obtain ⟨c, hc⟩ := exists_crcShifts_eq 8 y
  exact ⟨c ^^^ byte.setWidth 32, by rw [crcByte, BitVec.xor_assoc, BitVec.xor_self, BitVec.xor_zero, hc]⟩

theorem crcUpdate_left_injective (bytes : List Byte) : Function.Injective (crcUpdate · bytes) := by
  induction bytes with
  | nil => exact fun _ _ h => h
  | cons byte bytes ih => exact ih.comp (crcByte_left_injective byte)

/-- Settles O57: linearity step by step, and a bijection because each step can be undone in exactly one way. -/
theorem crcIsLinearAndLosesNoSeed : Obligations.CrcIsLinearAndLosesNoSeed := by
  refine ⟨fun x y => crcByte_xor x y 0#8 0#8, crcByte_eq_xor_zero, crcUpdate_xor,
    fun _ => crcUpdate_zero_of_forall_eq_zero fun _ h => List.eq_of_mem_replicate h, fun byte y => ?_,
    fun _ _ u h => crcUpdate_left_injective u h⟩
  obtain ⟨x, hx⟩ := exists_crcByte_eq byte y
  exact ⟨x, hx, fun z hz => crcByte_left_injective byte (hz.trans hx.symm)⟩

/-! ## The table forms (rule R80) -/

/-- While the bits shifted out are 0 the steps only shift. -/
theorem crcShifts_of_low_zero (n : Nat) {c : Word} (h : ∀ j < n, c.getLsbD j = false) : crcShifts n c = c >>> n := by
  induction n generalizing c with
  | zero => simp [crcShifts]
  | succ n ih =>
    have hshift : crcShift c = c >>> 1 := if_neg (Bool.eq_false_iff.mp (h 0 (by omega)))
    have hlow : ∀ j < n, (c >>> 1).getLsbD j = false := fun j hj => by
      simpa [Nat.add_comm] using h (j + 1) (by omega)
    rw [crcShifts, hshift, ih hlow, ← BitVec.shiftRight_add, Nat.add_comm]

/-- By linearity the low n bits alone decide what the polynomial contributes in n steps; the others only shift. -/
theorem crcShifts_eq_shift_xor_low (n : Nat) (c mask : Word)
    (hmask : ∀ j < 32, mask.getLsbD j = decide (j < n)) :
    crcShifts n c = (c >>> n) ^^^ crcShifts n (c &&& mask) := by
  have hhigh : c = (c &&& ~~~mask) ^^^ (c &&& mask) := by
    refine BitVec.eq_of_getLsbD_eq fun i hi => ?_
    rw [BitVec.getLsbD_xor, BitVec.getLsbD_and, BitVec.getLsbD_and, BitVec.getLsbD_not, decide_eq_true hi]
    cases c.getLsbD i <;> cases mask.getLsbD i <;> rfl
  have hshift : (c &&& ~~~mask) >>> n = c >>> n := by
    refine BitVec.eq_of_getLsbD_eq fun i _ => ?_
    by_cases hi : n + i < 32
    · have hm : mask.getLsbD (n + i) = false := by simp [hmask (n + i) hi]
      simp [-BitVec.getLsbD_eq_getElem, hi, hm]
    · simp [BitVec.getLsbD_of_ge c (n + i) (by omega)]
  have hlow : ∀ j < n, (c &&& ~~~mask).getLsbD j = false := fun j hj => by
    by_cases hj32 : j < 32
    · simp [hmask j hj32, hj]
    · simp [hj32]
  calc crcShifts n c
      = crcShifts n ((c &&& ~~~mask) ^^^ (c &&& mask)) := by rw [← hhigh]
    _ = crcShifts n (c &&& ~~~mask) ^^^ crcShifts n (c &&& mask) := crcShifts_xor n _ _
    _ = (c >>> n) ^^^ crcShifts n (c &&& mask) := by rw [crcShifts_of_low_zero n hlow, hshift]

theorem crcShifts_eight (c : Word) : crcShifts 8 c = (c >>> 8) ^^^ crcShifts 8 (c &&& 0xFF#32) :=
  crcShifts_eq_shift_xor_low 8 c 0xFF#32 (by decide)

theorem crcShifts_four (c : Word) : crcShifts 4 c = (c >>> 4) ^^^ crcShifts 4 (c &&& 0xF#32) :=
  crcShifts_eq_shift_xor_low 4 c 0xF#32 (by decide)

@[simp] theorem byte_setWidth_ushiftRight_eight (byte : Byte) : (byte.setWidth 32 : Word) >>> 8 = 0#32 := by
  refine BitVec.eq_of_getLsbD_eq fun i _ => ?_
  simp

/-- The 256-entry table form. -/
theorem crcByte_eq_table256 (acc : Word) (byte : Byte) :
    crcByte acc byte = (acc >>> 8) ^^^ crcShifts 8 ((acc ^^^ byte.setWidth 32) &&& 0xFF#32) := by
  rw [crcByte, crcShifts_eight, BitVec.ushiftRight_xor_distrib, byte_setWidth_ushiftRight_eight, BitVec.xor_zero]

/-- The 16-entry table form: four steps on the low half of the byte, then four on the high half. -/
theorem crcByte_eq_table16 (acc : Word) (byte : Byte) :
    let c1 := (acc >>> 4) ^^^ crcShifts 4 ((acc ^^^ byte.setWidth 32) &&& 0xF#32)
    crcByte acc byte = (c1 >>> 4) ^^^ crcShifts 4 ((c1 ^^^ (byte.setWidth 32 >>> 4)) &&& 0xF#32) := by
  intro c1
  have hfirst : crcShifts 4 (acc ^^^ byte.setWidth 32) = c1 ^^^ (byte.setWidth 32 >>> 4) := by
    rw [crcShifts_four, BitVec.ushiftRight_xor_distrib, BitVec.xor_assoc, BitVec.xor_comm (byte.setWidth 32 >>> 4),
      ← BitVec.xor_assoc]
  rw [crcByte, crcShifts_add 4 4, hfirst, crcShifts_four, BitVec.ushiftRight_xor_distrib, ← BitVec.shiftRight_add,
    byte_setWidth_ushiftRight_eight, BitVec.xor_zero]

/-- An index four bits up passes through four steps unchanged. -/
theorem crcShifts_four_eq_crcShifts_eight {j : Nat} (hj : j < 16) :
    crcShifts 4 (BitVec.ofNat 32 j) = crcShifts 8 (BitVec.ofNat 32 (16 * j)) := by
  have hshift : ∀ j < 16, (BitVec.ofNat 32 (16 * j) : Word) &&& 0xF#32 = 0#32 ∧
      (BitVec.ofNat 32 (16 * j) : Word) >>> 4 = BitVec.ofNat 32 j := by decide
  obtain ⟨hlow, hhigh⟩ := hshift j hj
  rw [crcShifts_add 4 4, crcShifts_four (BitVec.ofNat 32 (16 * j)), hlow, hhigh]
  exact congrArg (crcShifts 4) (BitVec.xor_zero).symm

/-- Settles O56: the table forms by linearity; the listed entries are evaluated. -/
theorem tableFormsComputeCrcByte : Obligations.TableFormsComputeCrcByte :=
  ⟨crcByte_eq_table256, crcByte_eq_table16, by decide, fun _ hj => crcShifts_four_eq_crcShifts_eight hj,
    by decide, by decide, by decide, by decide, by decide⟩

/-! ## The engine by its definition (rules R75, R76, R82, R83) -/

theorem crcShifts_eq_repeat (n : Nat) (c : Word) : crcShifts n c = Nat.repeat crcShift n c := by
  induction n with
  | zero => rfl
  | succ n ih => rw [crcShifts_add n 1, ih]; rfl

theorem rev32_crcPoly : rev32 Config.crcPoly = Config.crcPolyReflected := by
  have hbits : ∀ i < 32, Config.crcPoly.getMsbD i = Config.crcPolyReflected.getLsbD i := by decide
  exact BitVec.eq_of_getLsbD_eq fun i hi => (BitVec.getLsbD_reverse).trans (hbits i hi)

/-- Settles O48: eight steps are the step repeated, and the polynomial is compared bit by bit. -/
theorem crcByteIsEightReflectedSteps : Obligations.CrcByteIsEightReflectedSteps :=
  ⟨fun acc byte => crcShifts_eq_repeat 8 (acc ^^^ byte.setWidth 32), rev32_crcPoly⟩

theorem crcUpdate_eq_foldl (acc : Word) (bytes : List Byte) : crcUpdate acc bytes = bytes.foldl crcByte acc := by
  induction bytes generalizing acc with
  | nil => rfl
  | cons byte bytes ih => exact ih _

/-- Settles O49: the two equations of the recursion are its lemmas, and the fold follows by induction. -/
theorem crcUpdateIsTheLeftFoldOfCrcByte : Obligations.CrcUpdateIsTheLeftFoldOfCrcByte :=
  ⟨crcUpdate_eq_foldl, crcUpdate_nil, crcUpdate_cons⟩

/-- Settles O58: nine bytes of eight steps from each seed, evaluated. -/
theorem crcOfTheKnownMessage : Obligations.CrcOfTheKnownMessage := by
  refine ⟨?_, ?_, by decide⟩ <;> simp [crcByte, crcShifts, crcShift, Config.crcPolyReflected]

/-! ## CRC32 over a buffer that answers (rules R77, R78) -/

theorem exec_crc32_valid {s : State} (h : s.spanValid) : exec .crc32 s = .next { s with
    acc := crcUpdate s.acc (s.portBytes s.portReads.length (bufferAddrs s.a s.b.toNat))
    portReads := (bufferAddrs s.a s.b.toNat).reverse ++ s.portReads } := by
  rw [← span_eq_bufferAddrs]
  exact execCrc32_valid s h

theorem State.spanValid_of_spanQuiet {s : State} (h : s.spanQuiet s.a s.b.toNat) : s.spanValid := fun y hy =>
  s.memValid_of_plain y (h y (span_eq_bufferAddrs s.a s.b.toNat ▸ hy)).1

/-- Over a quiet buffer the port returns memory's bytes, whatever the numbers of the reads. -/
theorem State.portBytes_of_spanQuiet {s : State} {x : Addr} {n : Nat} (h : s.spanQuiet x n) (k : Nat) :
    s.portBytes k (bufferAddrs x n) = bufferBytes s.mem x n := by
  refine List.ext_getElem (by simp [bufferBytes]) fun i hi _ => ?_
  have hmem : BitVec.ofNat 32 (x.toNat + i) ∈ bufferAddrs x n := by
    rw [← getElem_bufferAddrs x n i (by simpa using hi)]
    exact List.getElem_mem _
  obtain ⟨hplain, hposted⟩ := h _ hmem
  rw [State.getElem_portBytes, getElem_bufferAddrs, State.portByte_plain s _ _ hplain hposted]
  simp [bufferBytes]

theorem exec_crc32_quiet {s : State} (h : s.spanQuiet s.a s.b.toNat) : exec .crc32 s = .next { s with
    acc := crcUpdate s.acc (bufferBytes s.mem s.a s.b.toNat)
    portReads := (bufferAddrs s.a s.b.toNat).reverse ++ s.portReads } := by
  rw [exec_crc32_valid (State.spanValid_of_spanQuiet h), State.portBytes_of_spanQuiet h]

theorem exec_crc32_acc_of_spanQuiet {s t : State} (h : s.spanQuiet s.a s.b.toNat) (ht : exec .crc32 s = .next t) :
    t.acc = crcUpdate s.acc (bufferBytes s.mem s.a s.b.toNat) := by
  cases (exec_crc32_quiet h).symm.trans ht
  rfl

/-- With B = 0 the buffer has no address. -/
theorem exec_crc32_of_b_eq_zero {s : State} (h : s.b = 0#32) : exec .crc32 s = .next s := by
  have hempty : bufferAddrs s.a s.b.toNat = [] := by rw [h]; rfl
  have hvalid : s.spanValid := fun y hy => by
    rw [State.byteCount, span_eq_bufferAddrs, hempty] at hy
    exact absurd hy List.not_mem_nil
  rw [exec_crc32_valid hvalid, hempty]
  rfl

/-- Settles O55: the complements between two parts cancel, and CRC32 leaves ACC and memory as the second run takes
them. -/
theorem crcComposesOverFragments : Obligations.CrcComposesOverFragments := by
  refine ⟨fun x seed buf k => ?_, fun s t u a b hs ht hquiet hu => ?_⟩
  · have hcancel : ∀ c : Word, (c ^^^ x) ^^^ x = c := fun c => by
      rw [BitVec.xor_assoc, BitVec.xor_self, BitVec.xor_zero]
    rw [hcancel, ← crcUpdate_append, List.take_append_drop]
  · obtain ⟨-, -, hmem, -⟩ := exec_frame ht
    have hsecond : u.acc = crcUpdate t.acc (bufferBytes t.mem a b.toNat) := exec_crc32_acc_of_spanQuiet hquiet hu
    rw [hsecond, exec_crc32_acc_of_spanQuiet hs ht, hmem, crcUpdate_append]

/-! ## CRC32 over a buffer that is refused (rule R79) -/

theorem exec_crc32_refused {s : State} (h : ¬s.spanValid) : exec .crc32 s = .next (({ s with
    acc := Config.freeWord s.draws
    draws := s.draws + 1
    portReads := ((bufferAddrs s.a s.b.toNat).takeWhile s.memValid).reverse ++ s.portReads } : State).faulted
      .busError) := by
  rw [exec, execCrc32_refused s h, State.raise_eq_faulted, span_eq_bufferAddrs]
  rfl

theorem exec_crc32_draws_of_refused {s t : State} (h : ¬s.spanValid) (ht : exec .crc32 s = .next t) :
    t.draws = s.draws + 1 := by
  cases (exec_crc32_refused h).symm.trans ht
  rfl

theorem bufferAddrs_take (x : Addr) {n i : Nat} (h : i ≤ n) : (bufferAddrs x n).take i = bufferAddrs x i := by
  rw [← span_eq_bufferAddrs, span_take, Nat.min_eq_left h, span_eq_bufferAddrs]

/-- The answering addresses at the front of a buffer are those before the first that is refused. -/
theorem takeWhile_bufferAddrs {p : Addr → Bool} {x : Addr} {n i : Nat} (hi : i < n)
    (hbefore : ∀ j < i, p (BitVec.ofNat 32 (x.toNat + j)) = true) (hat : p (BitVec.ofNat 32 (x.toNat + i)) = false) :
    (bufferAddrs x n).takeWhile p = bufferAddrs x i := by
  have hfirst : (bufferAddrs x n).findIdx (fun y => !p y) = i :=
    (List.findIdx_eq (by simpa using hi)).mpr ⟨by simp [hat], fun j hj => by simp [hbefore j hj]⟩
  rw [List.takeWhile_eq_take_findIdx_not, hfirst, bufferAddrs_take x (Nat.le_of_lt hi)]

/-- Settles O53: the buffer is refused at its i-th address, and the reads are the addresses before it. -/
theorem refusedReadEndsCrc32WithBusError : Obligations.RefusedReadEndsCrc32WithBusError := by
  intro s i hi hbefore hat
  have hmem : BitVec.ofNat 32 (s.a.toNat + i) ∈ span s.a s.byteCount := by
    rw [span_eq_bufferAddrs]
    exact List.mem_map.mpr ⟨i, List.mem_range.mpr hi, rfl⟩
  have hrefused : ¬s.spanValid := fun h => Bool.false_ne_true (hat.symm.trans (h _ hmem))
  rw [exec_crc32_refused hrefused, takeWhile_bufferAddrs hi hbefore hat]

/-- Settles O54: with a length the reads or the draws grow, and a buffer that answers is read from its first address. -/
theorem zeroLengthIsTheOnlyNoOp : Obligations.ZeroLengthIsTheOnlyNoOp := by
  refine ⟨fun s => ⟨fun h => ?_, exec_crc32_of_b_eq_zero⟩, fun s ha hb hs => ⟨_, exec_crc32_valid hs, by rw [ha], ?_⟩⟩
  · by_cases hs : s.spanValid
    · have heq : (bufferAddrs s.a s.b.toNat).reverse ++ s.portReads = s.portReads :=
        congrArg State.portReads (Host.Outcome.next.inj ((exec_crc32_valid hs).symm.trans h))
      have hlength : s.b.toNat = 0 := by simpa using congrArg List.length heq
      exact BitVec.eq_of_toNat_eq hlength
    · exact absurd (exec_crc32_draws_of_refused hs h) (by omega)
  · have hpos : 0 < s.b.toNat := Nat.pos_of_ne_zero fun h => hb (BitVec.eq_of_toNat_eq h)
    exact List.mem_map.mpr ⟨0, List.mem_range.mpr hpos, rfl⟩

/-- Settles O50: CRC32 over a buffer that answers, a quiet one, a refused one and an empty one, with two values of the
fold. -/
theorem crc32FoldsTheBufferIntoAcc : Obligations.Crc32FoldsTheBufferIntoAcc := by
  refine ⟨decode_encode .crc32, rfl, fun _ => exec_crc32_valid, fun _ => exec_crc32_quiet, fun _ => exec_crc32_refused,
    fun _ => exec_crc32_of_b_eq_zero, fun s t hs hacc hzero ht => ?_, fun s t hs hbytes ht => ?_⟩
  · rw [exec_crc32_acc_of_spanQuiet hs ht, hacc, crcUpdate_zero_of_forall_eq_zero hzero]
  · obtain ⟨hzeros, hones, -⟩ := crcOfTheKnownMessage
    rw [exec_crc32_acc_of_spanQuiet hs ht, hbytes]
    exact ⟨fun hacc => hacc ▸ hzeros, fun hacc => hacc ▸ hones⟩

end Sys2Proof.Machine
end

section
/-! The statements of the family 60_exceptions.md: the fault each command raises, the raise and the acknowledgement, and
the fault that stays. -/

namespace Sys2Proof.Machine

/-! ## Every command answers a next state (60_exceptions.md rules R86 to R90) -/

theorem exists_exec_eq_next (i : Instr) (s : State) : ∃ t, exec i s = .next t := by
  by_cases hi : i = .crc32
  · subst hi
    obtain ⟨_, _, h⟩ | ⟨_, h⟩ := exec_crc32_cases s <;> exact ⟨_, h⟩
  · exact ⟨_, exec_eq_putR_raiseIf hi s⟩

/-- Settles O21: the command's next state, with STATUS by whether its operands call for a fault. -/
theorem eachCommandRaisesItsOwnCause : Obligations.EachCommandRaisesItsOwnCause := by
  refine ⟨fun i s => ?_, rfl⟩
  obtain ⟨t, ht⟩ := exists_exec_eq_next i s
  refine ⟨t, ht, fun hf => ?_, exec_status_of_faultOf_ne_none ht⟩
  obtain ⟨herr, hcause, -⟩ := exec_status_draws_of_faultOf_none ht hf
  exact ⟨herr, hcause⟩

/-! ## The raise and the acknowledgement (rules R88 and R92) -/

/-- Settles O22: the two branches of the raise. -/
theorem raiseRecordsTheFirstCause : Obligations.RaiseRecordsTheFirstCause := fun c s =>
  ⟨fun h => if_neg (Bool.eq_false_iff.mp h), s.raise_of_err c⟩

/-- Settles O24: the acknowledgement is a clause about STATUS; a raise while a fault stands is absorbed. -/
theorem hostAcknowledgesAFault : Obligations.HostAcknowledgesAFault := by
  obtain ⟨-, -, hclear, -⟩ := statusReadsAndClearsAsItsFieldsSay
  refine ⟨hclear, fun s c herr => ?_⟩
  rw [s.raise_of_err c herr]
  exact ⟨herr, rfl⟩

/-! ## The fault stays (rule R89) -/

/-- With ERR at 1 an event leaves ERR and CAUSE unless it clears STATUS or is a reset. -/
theorem EventEffect.fault_stays {s t : State} {e : Event} (h : EventEffect s e t) (herr : s.err = true) :
    (t.err = true ∧ t.cause = s.cause) ∨
      (∃ v, registerWrite s e = some (.status, v) ∧ v.getLsbD 0 = true) ∨ e.isReset = true := by
  cases h with
  | command _ _ _ _ ht => exact .inl (exec_status_of_err ht herr)
  | illegal => rw [s.raise_of_err _ herr]; exact .inl ⟨herr, rfl⟩
  | clear v hw hv => exact .inr (.inl ⟨v, hw, hv⟩)
  | reset _ hr => exact .inr (.inr hr)
  | storeA | storeB | storeAcc | memWrite | memPost | memPublish | handed => exact .inl ⟨herr, rfl⟩

/-! ## ERR gates nothing (rule R89) -/

/-- The state with ERR at 1 and `c` in CAUSE, whatever STATUS was; `State.faulted` keeps an earlier cause instead. -/
def State.withFault (c : Cause) (s : State) : State := { s with err := true, cause := c }

section
variable (s : State) (c d : Cause)

@[simp] theorem State.raise_withFault : (s.withFault c).raise d = s.withFault c :=
  State.raise_of_err _ d rfl

@[simp] theorem State.withFault_raise : (s.raise d).withFault c = s.withFault c := by
  rw [s.raise_eq]
  rfl

@[simp] theorem State.raiseIf_withFault : (s.withFault c).raiseIf d = s.withFault c := by
  unfold State.raiseIf; split <;> simp

@[simp] theorem State.withFault_raiseIf : (s.raiseIf d).withFault c = s.withFault c := by
  unfold State.raiseIf; split <;> simp

/-- No result reads STATUS. -/
theorem State.putR_withFault (result : Option Word) : (s.withFault c).putR result = (s.putR result).withFault c := by
  cases result <;> rfl

/-- No read of the port depends on STATUS. -/
@[simp] theorem State.portBytes_withFault (n : Nat) (xs : List Addr) :
    (s.withFault c).portBytes n xs = s.portBytes n xs := by
  induction xs generalizing n with
  | nil => rfl
  | cons x xs ih => exact congrArg (s.portByte n x :: ·) (ih (n + 1))

end

/-- A command does with a fault recorded what it does with any other STATUS, STATUS apart. -/
theorem exec_withFault {i : Instr} {s t : State} (c : Cause) (ht : exec i s = .next t) :
    exec i (s.withFault c) = .next (t.withFault c) := by
  by_cases hi : i = .crc32
  · subst hi
    by_cases hv : s.spanValid
    · cases (exec_crc32_valid hv).symm.trans ht
      rw [exec_crc32_valid (s := s.withFault c) hv, s.portBytes_withFault]
      rfl
    · cases (execCrc32_refused s hv).symm.trans ht
      rw [State.withFault_raise]
      exact (execCrc32_refused (s.withFault c) hv).trans (congrArg _ (State.raise_of_err _ _ rfl))
  · cases (exec_eq_putR_raiseIf hi s).symm.trans ht
    rw [exec_eq_putR_raiseIf hi, State.putR_withFault, State.raiseIf_withFault, State.withFault_raiseIf]
    rfl

/-- Settles O23: a step is an effect of its event, which keeps the fault; and no command reads STATUS. -/
theorem faultStaysUntilClearedOrReset : Obligations.FaultStaysUntilClearedOrReset := by
  refine ⟨fun s t e rest herr hp ht => ?_, fun i s t c ht => exec_withFault c ht⟩
  rw [← registerWrite_pending s e rest]
  exact (step_effect hp ht).fault_stays herr

end Sys2Proof.Machine
end

section
/-! The statements of the family 70_reset_and_hazards.md: the state after reset, reset inside a run and during CRC32, and
the step that no state is without. -/

namespace Sys2Proof.Machine

/-! ## The state after reset (70_reset_and_hazards.md rule R100) -/

/-- Without a fault recorded STATUS reads as 0 (10_state.md rule R16). -/
theorem State.readReg_status_of_no_fault {s : State} (herr : s.err = false) (hcause : s.cause = .none) :
    s.readReg .status = 0x00000000#32 := by
  have hlegal : s.statusLegal := iff_of_true herr hcause
  rw [State.readReg, State.statusWord_of_legal hlegal, hcause]
  rfl

/-- A memory that lists nothing is in canonical form (entry 3). -/
theorem Memory.nil_wf : Memory.wf [] := ⟨.nil, fun _ h => absurd h List.not_mem_nil⟩

/-- Settles O9: memory lists nothing, and ERR and CAUSE are both clear. -/
theorem resetHasMemoryFormAndLegalStatus : Obligations.ResetHasMemoryFormAndLegalStatus :=
  ⟨Memory.nil_wf, iff_of_true rfl rfl⟩

/-- Settles O14: the fields are those of the definition; STATUS is without a fault, and no region refuses an address. -/
theorem resetClearsStatus : Obligations.ResetClearsStatus :=
  ⟨rfl, rfl, State.readReg_status_of_no_fault rfl rfl, rfl, rfl, rfl, rfl, rfl, fun _ => rfl,
    fun x => State.reset.memValid_of_plain x rfl⟩

/-! ## Reset inside a run (rules R100 and R101) -/

/-- Settles O15: the step serves the reset, which leaves STATUS without a fault. -/
theorem resetEventDrawsFourFreeRegisters : Obligations.ResetEventDrawsFourFreeRegisters := fun s rest hp =>
  ⟨_, step_serve s _ rest hp, rfl, State.readReg_status_of_no_fault rfl rfl, rfl⟩

/-- The reads CRC32 makes over the first `n` bytes of its buffer: the addresses before the first refused one. -/
theorem crcRun_reads (s : State) (n : Nat) :
    (crcRun s n).reads = ((bufferAddrs s.a n).takeWhile s.memValid).reverse ++ s.portReads := by
  rw [← span_eq_bufferAddrs]
  exact crcLoop_reads s n s.a _ s.portReads

/-- A reset that meets CRC32 keeps the first `k` of the reads a whole command would have made (rule R101). -/
theorem abandonedReads_of_crc32 {w : Word} (h : decode w = .ok .crc32) (k : Nat) (s : State) :
    abandonedReads w k s =
      (((bufferAddrs s.a s.b.toNat).takeWhile s.memValid).take k).reverse ++ s.portReads := by
  have hword : (decode w).toOption = some .crc32 := by rw [h]; rfl
  have hbuffer : (bufferAddrs s.a s.b.toNat).take k = bufferAddrs s.a (min k s.byteCount) := by
    rw [← span_eq_bufferAddrs, span_take, span_eq_bufferAddrs, State.byteCount]
  rw [abandonedReads, if_pos hword, crcRun_reads, List.take_takeWhile, hbuffer]

/-- Settles O16: reset leaves the port's reads as the abandoned command made them, and only CRC32 makes any. -/
theorem resetDuringCommandAbandonsIt : Obligations.ResetDuringCommandAbandonsIt := fun s _ k rest hp =>
  ⟨_, step_serve s _ rest hp, rfl, rfl, rfl, rfl, rfl, rfl, rfl,
    fun hd => abandonedReads_of_crc32 hd k { s with pending := rest },
    fun hd => abandonedReads_of_ne_crc32 hd k { s with pending := rest }⟩

/-! ## Every step answers (rule R108, 60_exceptions.md rule R91) -/

theorem exists_execWord_eq_next (w : Word) (s : State) : ∃ t, execWord w s = .next t := by
  obtain ⟨i, -, h⟩ | ⟨-, h⟩ := execWord_cases w s
  · rw [h]
    exact exists_exec_eq_next i s
  · exact ⟨_, h⟩

theorem exists_serveWrite_eq_next (n : RegNum) (v : Word) (s : State) : ∃ t, serveWrite n v s = .next t := by
  obtain ⟨-, h⟩ | ⟨-, h⟩ := serveWrite_cases n v s
  · rw [h]
    exact exists_execWord_eq_next v s
  · exact ⟨_, h⟩

/-- Every event is served to a next state. -/
theorem exists_serve_eq_next (e : Event) (s : State) : ∃ t, serve e s = .next t := by
  cases e with
  | regWrite n v => exact exists_serveWrite_eq_next n v s
  | busWrite x v =>
    obtain ⟨n, -, h⟩ | ⟨-, h⟩ := serveBusWrite_cases x v s
    · rw [serve, h]
      exact exists_serveWrite_eq_next n v s
    · exact ⟨_, h⟩
  | regRead | busRead | memWrite | memPost | memPublish | reset | resetDuring => exact ⟨_, rfl⟩

/-- Serving an event leaves the coming ones as they are (entry 5). -/
theorem EventEffect.pending_eq {s t : State} {e : Event} (h : EventEffect s e t) : t.pending = s.pending := by
  cases h with
  | command _ _ _ _ ht =>
    obtain ⟨-, -, -, -, -, hpending, -⟩ := exec_frame ht
    exact hpending
  | illegal => exact s.raise_pending _
  | storeA | storeB | storeAcc | clear | reset | memWrite | memPost | memPublish | handed => rfl

/-- Settles O7: with no event the step is idle; otherwise the first event is served, which leaves the rest. -/
theorem everyStepAnswersANextState : Obligations.EveryStepAnswersANextState := by
  intro s
  cases hp : s.pending with
  | nil => exact ⟨s, step_idle s hp, hp⟩
  | cons e rest =>
    obtain ⟨t, ht⟩ := exists_serve_eq_next e { s with pending := rest }
    exact ⟨t, (step_serve s e rest hp).trans ht, (serve_effect ht).pending_eq⟩

end Sys2Proof.Machine
end
